-- ==== Sys2Proof/Word.lean ====
section
/-! DEFINITION. The block's two word types and the two small alphabets its commands are built from:
00_scope.md R7 (BYTE, NBITS_SET), R9; 30_encoding.md R70, R72. -/

namespace Sys2Proof

/-- `u8`, one buffer element (R7 `BYTE` = 8, R9). -/
abbrev Byte := BitVec 8

/-- `u16`, the command word `CMD[15:0]` (R22, R70). It is one whole value and has no byte order (R56). -/
abbrev CmdWord := BitVec 16

/-- The packing policies of R72 with a legal code: TRUST 00, MASK 01, STRICT 10. -/
inductive Policy where
  | trust
  | mask
  | strict
  deriving DecidableEq, Repr

/-- The legal bit widths, R7 `NBITS_SET` = {1, 2, 4}. -/
inductive Width where
  | one
  | two
  | four
  deriving DecidableEq, Repr

/-- The bit width as a number. -/
def Width.nbits : Width → Nat
  | .one => 1
  | .two => 2
  | .four => 4

end Sys2Proof
end

