-- ==== Sys2Proof/Config.lean ====
section
/-! DEFINITION. The implementation parameters of 00_scope.md R7 that the spec leaves OPEN, and the free
bytes. The parameters are plain data (an argument of the model, R7): the machine's state carries them in
its field `config`, no step changes them, and so a claim over all states is a claim for every value of
every parameter (log 1). -/

namespace Sys2Proof

/-- `OOR_TRUST_RESULT` (R7, 41_pack.md R124): what TRUST-policy Pack gives for a group with an
out-of-range sample. -/
inductive OorTrust where
  /-- `trunc8` of the shift/OR formula. -/
  | formula8
  /-- A draw: any byte, chosen freely per group. -/
  | any
  deriving DecidableEq, Repr

/-- `BITREV_IMPL` (R7, D21): how bit_reversal_lut is built. No rule can observe it. -/
inductive BitrevImpl where
  | lut
  | formula
  deriving DecidableEq, Repr

/-- The OPEN parameters of R7. `maxLen = none` is "unbounded". -/
structure Config where
  maxLen : Option Nat
  oorTrust : OorTrust
  lanes : Nat
  bitrevImpl : BitrevImpl
  deriving DecidableEq, Repr

/-- The defaults of R7: MAX_LEN unbounded, OOR_TRUST_RESULT = FORMULA8. R7 gives no default for LANES and
BITREV_IMPL: 1 and LUT are a DESIGN CHOICE (log 2) that no rule can observe. -/
def Config.default : Config := ⟨none, .formula8, 1, .lut⟩

/-- `len <= MAX_LEN` (R7, R22, R210). -/
def Config.allows (c : Config) (len : Nat) : Bool :=
  match c.maxLen with
  | none => true
  | some m => decide (len ≤ m)

/-- The free bytes: nothing is known of any of them (log 7, log 8). A draw of R124 (`ANY`) or a byte of an
abandoned OBUF (R202) is one of them, numbered by the counter `draws` of the state. -/
opaque Config.freeByte : Nat → Byte

end Sys2Proof
end

