-- ==== Sys2Proof/Syntax.lean ====
section
/-! DEFINITION. The command set PC1, one constructor for each of the 13 rows of the opcode map
(30_encoding.md R79; spec/opcode_table.json). -/

namespace Sys2Proof

/-- A legal command. The fields an operation ignores (R76) are kept as operands, so that no bit of a
command word is lost between its word and its instruction (log 22). -/
inductive Instr where
  /-- `bitrev` (R101): POLICY and NBITS are ignored and may hold anything. -/
  | bitrev (policy nbits : Nat)
  /-- `pack.1` under each policy (R127). -/
  | pack1Trust
  | pack1Mask
  | pack1Strict
  /-- `pack.2` under each policy (R128). -/
  | pack2Trust
  | pack2Mask
  | pack2Strict
  /-- `pack.4` under each policy (R129). -/
  | pack4Trust
  | pack4Mask
  | pack4Strict
  /-- `unpack.1` (R153): POLICY is ignored. -/
  | unpack1 (policy : Nat)
  /-- `unpack.2` (R154): POLICY is ignored. -/
  | unpack2 (policy : Nat)
  /-- `unpack.4` (R155): POLICY is ignored. -/
  | unpack4 (policy : Nat)
  deriving DecidableEq, Repr

end Sys2Proof
end

