-- ==== Sys2Proof/WellFormed.lean ====
section
/-! DEFINITION. Which instructions a command word can hold: an ignored field still has its width
(30_encoding.md R70: POLICY 2 bits, NBITS 8 bits). -/

namespace Sys2Proof

/-- POLICY is a 2-bit field (R70). -/
def fitsPolicy (p : Nat) : Bool := decide (p < 4)

/-- NBITS is an 8-bit field, a number in [0, 255] (R70, R74). -/
def fitsNbits (n : Nat) : Bool := decide (n < 256)

/-- The instruction's operands fit the fields of the command word. -/
def Instr.wf : Instr → Bool
  | .bitrev p n => fitsPolicy p && fitsNbits n
  | .pack1Trust => true
  | .pack1Mask => true
  | .pack1Strict => true
  | .pack2Trust => true
  | .pack2Mask => true
  | .pack2Strict => true
  | .pack4Trust => true
  | .pack4Mask => true
  | .pack4Strict => true
  | .unpack1 p => fitsPolicy p
  | .unpack2 p => fitsPolicy p
  | .unpack4 p => fitsPolicy p

end Sys2Proof
end

