-- ==== Sys2Proof/Decode.lean ====
section
/-! DEFINITION. The command word's fields, the decoder of 30_encoding.md R75, the encoder written from
the same tables (R70 to R74), and the opcode map of R79 as data. -/

namespace Sys2Proof

/-- `v[hi:lo]`, the field from bit `hi` down to bit `lo`, read as an unsigned number (R8). -/
def bits (v hi lo : Nat) : Nat := v / 2 ^ lo % 2 ^ (hi + 1 - lo)

/-- `CMD.OP = CMD[1:0]` (R70, R71). -/
def cmdOp (w : CmdWord) : Nat := bits w.toNat 1 0

/-- `CMD.POLICY = CMD[3:2]` (R70, R72). -/
def cmdPolicy (w : CmdWord) : Nat := bits w.toNat 3 2

/-- `CMD.RSV = CMD[7:4]` (R70, R73). -/
def cmdRsv (w : CmdWord) : Nat := bits w.toNat 7 4

/-- `CMD.NBITS = zext_8(CMD[15:8])` (R70, R74). -/
def cmdNbits (w : CmdWord) : Nat := bits w.toNat 15 8

/-- What decoding answers. -/
inductive Decoded where
  /-- A legal command (R79). -/
  | instr (i : Instr)
  /-- InvalidCommand, with the whole word (R174). -/
  | invalidCommand (w : CmdWord)
  /-- InvalidBitWidth, with the NBITS value (R171). -/
  | invalidBitWidth (nbits : Nat)
  deriving DecidableEq, Repr

/-- The legal width an NBITS value stands for (R74). -/
def widthOf (nb : Nat) : Option Width :=
  if nb = 1 then some .one else if nb = 2 then some .two else if nb = 4 then some .four else none

/-- The policy a POLICY code stands for (R72); 11 is reserved. -/
def policyOf (p : Nat) : Option Policy :=
  if p = 0 then some .trust else if p = 1 then some .mask else if p = 2 then some .strict else none

/-- The `pack` command of a width and a policy (R79). -/
def packInstr : Width → Policy → Instr
  | .one, .trust => .pack1Trust
  | .one, .mask => .pack1Mask
  | .one, .strict => .pack1Strict
  | .two, .trust => .pack2Trust
  | .two, .mask => .pack2Mask
  | .two, .strict => .pack2Strict
  | .four, .trust => .pack4Trust
  | .four, .mask => .pack4Mask
  | .four, .strict => .pack4Strict

/-- The `unpack` command of a width, with the ignored POLICY bits (R79). -/
def unpackInstr (n : Width) (p : Nat) : Instr :=
  match n with
  | .one => .unpack1 p
  | .two => .unpack2 p
  | .four => .unpack4 p

/-- Decode, in the order of R75: the first test that fires decides. It reads no buffer byte. -/
def decode (w : CmdWord) : Decoded :=
  if cmdOp w = 3 then .invalidCommand w
  else if cmdRsv w ≠ 0 then .invalidCommand w
  else if cmdOp w = 0 then .instr (.bitrev (cmdPolicy w) (cmdNbits w))
  else if cmdOp w = 1 then
    match policyOf (cmdPolicy w) with
    | none => .invalidCommand w
    | some pol =>
      match widthOf (cmdNbits w) with
      | none => .invalidBitWidth (cmdNbits w)
      | some n => .instr (packInstr n pol)
  else
    match widthOf (cmdNbits w) with
    | none => .invalidBitWidth (cmdNbits w)
    | some n => .instr (unpackInstr n (cmdPolicy w))

/-- A command word put together from its fields (R70), RSV = 0000. -/
def word (nbits policy op : Nat) : CmdWord := BitVec.ofNat 16 (nbits * 256 + policy * 4 + op)

/-- The command word of an instruction (R70 to R74, R79). -/
def encode : Instr → CmdWord
  | .bitrev p n => word n p 0
  | .pack1Trust => word 1 0 1
  | .pack1Mask => word 1 1 1
  | .pack1Strict => word 1 2 1
  | .pack2Trust => word 2 0 1
  | .pack2Mask => word 2 1 1
  | .pack2Strict => word 2 2 1
  | .pack4Trust => word 4 0 1
  | .pack4Mask => word 4 1 1
  | .pack4Strict => word 4 2 1
  | .unpack1 p => word 1 p 2
  | .unpack2 p => word 2 p 2
  | .unpack4 p => word 4 p 2

/-- One row of the opcode map: a word matches when `(CMD & mask) == match` (R79). -/
structure OpRow where
  mnemonic : String
  matchBits : CmdWord
  mask : CmdWord
  deriving DecidableEq, Repr

/-- `(CMD & mask) == match` (R79). -/
def OpRow.covers (r : OpRow) (w : CmdWord) : Bool := w &&& r.mask == r.matchBits

/-- The row of the opcode map an instruction belongs to (R79). -/
def Instr.row : Instr → OpRow
  | .bitrev _ _ => ⟨"bitrev", 0x0000, 0x00F3⟩
  | .pack1Trust => ⟨"pack.1.trust", 0x0101, 0xFFFF⟩
  | .pack1Mask => ⟨"pack.1.mask", 0x0105, 0xFFFF⟩
  | .pack1Strict => ⟨"pack.1.strict", 0x0109, 0xFFFF⟩
  | .pack2Trust => ⟨"pack.2.trust", 0x0201, 0xFFFF⟩
  | .pack2Mask => ⟨"pack.2.mask", 0x0205, 0xFFFF⟩
  | .pack2Strict => ⟨"pack.2.strict", 0x0209, 0xFFFF⟩
  | .pack4Trust => ⟨"pack.4.trust", 0x0401, 0xFFFF⟩
  | .pack4Mask => ⟨"pack.4.mask", 0x0405, 0xFFFF⟩
  | .pack4Strict => ⟨"pack.4.strict", 0x0409, 0xFFFF⟩
  | .unpack1 _ => ⟨"unpack.1", 0x0102, 0xFFF3⟩
  | .unpack2 _ => ⟨"unpack.2", 0x0202, 0xFFF3⟩
  | .unpack4 _ => ⟨"unpack.4", 0x0402, 0xFFF3⟩

/-- The opcode map, the rows of R79 in their order. -/
def opcodeMap : List OpRow :=
  [Instr.row (.bitrev 0 0),
   Instr.row .pack1Trust, Instr.row .pack1Mask, Instr.row .pack1Strict,
   Instr.row .pack2Trust, Instr.row .pack2Mask, Instr.row .pack2Strict,
   Instr.row .pack4Trust, Instr.row .pack4Mask, Instr.row .pack4Strict,
   Instr.row (.unpack1 0), Instr.row (.unpack2 0), Instr.row (.unpack4 0)]

/-- What the decoder reads from a table word of `nbits` bits (R82: every command is one 16-bit word, so
bits 15..0 are the whole instruction and a word with a bit above them is none). -/
def decodeTableWord (nbits w : Nat) : Option Instr :=
  if nbits ≤ 16 ∧ w < 2 ^ 16 then
    match decode (BitVec.ofNat 16 w) with
    | .instr i => some i
    | .invalidCommand _ => none
    | .invalidBitWidth _ => none
  else none

end Sys2Proof
end

