-- ==== Sys2Proof/Machine/Assembly.lean ====
section
/-! DEFINITION. The assembly and call forms in which HOST may write a command, their command words, and
disassembly: 30_encoding.md R83, R84, R85. -/

namespace Sys2Proof.Machine

/-- A written command before expansion: the mnemonics of R83 and the pseudo-instructions of R84. Widths
are natural numbers, since a written width may not fit the NBITS field (R74, R210). -/
inductive Source where
  /-- `bitrev` -/
  | bitrev
  /-- `pack.<n>.<policy>`, or the alias `pack.<n>` where no policy is written -/
  | pack (n : Nat) (policy : Option Policy)
  /-- `unpack.<n>` -/
  | unpack (n : Nat)
  /-- `bit_reverse(x)` -/
  | bitReverseCall
  /-- `pack(x, n)` -/
  | packCall (n : Nat)
  /-- `unpack(y, n)` -/
  | unpackCall (n : Nat)
  deriving DecidableEq, Repr

/-- A mnemonic with its parameters (R83), no alias left. -/
inductive Mnemonic where
  | bitrev
  | pack (n : Nat) (policy : Policy)
  | unpack (n : Nat)
  deriving DecidableEq, Repr

/-- What a command word disassembles to (R85). -/
inductive Listing where
  | mnemonic (m : Mnemonic)
  | invalid (w : CmdWord)
  deriving DecidableEq, Repr

/-- Expansion of the aliases (R84). -/
def Source.expand : Source → Mnemonic
  | .bitrev => .bitrev
  | .pack n none => .pack n .trust
  | .pack n (some p) => .pack n p
  | .unpack n => .unpack n
  | .bitReverseCall => .bitrev
  | .packCall n => .pack n .trust
  | .unpackCall n => .unpack n

/-- The POLICY code of a policy (R72). -/
def policyCode : Policy → Nat
  | .trust => 0
  | .mask => 1
  | .strict => 2

/-- The command word of a mnemonic (R83): `bitrev` assembles with NBITS = 0 and POLICY = 00, `unpack.<n>`
with POLICY = 00; any width in 0 to 255 assembles. A width that does not fit the 8-bit NBITS field has no
command word and is never truncated (R74, R210). -/
def Mnemonic.assemble : Mnemonic → Option CmdWord
  | .bitrev => some (word 0 0 0)
  | .pack n p => if n ≤ 255 then some (word n (policyCode p) 1) else none
  | .unpack n => if n ≤ 255 then some (word n 0 2) else none

/-- Disassembly (R85): by the fields, a word that raises InvalidCommand prints as invalid, and a `pack` or
`unpack` word with an illegal NBITS prints with its NBITS value. -/
def disassemble (w : CmdWord) : Listing :=
  match decode w with
  | .invalidCommand _ => .invalid w
  | .instr _ | .invalidBitWidth _ =>
    if cmdOp w = 0 then .mnemonic .bitrev
    else if cmdOp w = 1 then
      match policyOf (cmdPolicy w) with
      | some p => .mnemonic (.pack (cmdNbits w) p)
      | none => .invalid w
    else .mnemonic (.unpack (cmdNbits w))

/-- The policy's name in assembly text (R83). -/
def policyName : Policy → String
  | .trust => "trust"
  | .mask => "mask"
  | .strict => "strict"

/-- One upper-case hexadecimal digit. -/
def hexDigit (d : Nat) : String :=
  ["0", "1", "2", "3", "4", "5", "6", "7", "8", "9", "A", "B", "C", "D", "E", "F"].getD d "0"

/-- The word as `0x` and four upper-case digits, as the spec writes command words (log 23). -/
def hexWord (w : CmdWord) : String :=
  "0x" ++ hexDigit (bits w.toNat 15 12) ++ hexDigit (bits w.toNat 11 8)
    ++ hexDigit (bits w.toNat 7 4) ++ hexDigit (bits w.toNat 3 0)

/-- The text of a listing (R85). -/
def Listing.text : Listing → String
  | .mnemonic .bitrev => "bitrev"
  | .mnemonic (.pack n p) => "pack." ++ toString n ++ "." ++ policyName p
  | .mnemonic (.unpack n) => "unpack." ++ toString n
  | .invalid w => ".invalid " ++ hexWord w

end Sys2Proof.Machine
end

