-- ==== Sys2Proof/Machine/State.lean ====
section
/-! DEFINITION. The state of PABO CORE and of the HOST it serves, as plain data: 10_state.md R20 to R37,
20_memory.md R50, 70_reset_and_hazards.md R200 to R202. -/

namespace Sys2Proof.Machine

/-- One of the block's two byte-indexed spaces (R50): cells (index, byte), indices strictly rising. An index
that is not listed holds no byte, and reading it gives nothing (log 14). -/
abbrev Memory := List Host.Cell

/-- The command in flight, `(CMD, N, IBUF)` (R22). -/
structure Command where
  cmd : CmdWord
  n : Nat
  ibuf : Memory
  deriving DecidableEq, Repr

/-- A response, `(STATUS, ERRINFO, L, OBUF)` (R26). -/
structure Response where
  status : Byte
  errinfo : Nat
  len : Nat
  obuf : Memory
  deriving DecidableEq, Repr

/-- CORE's hidden progress through the command in flight (R36): how far the STRICT range scan has got (`scanned`, a
prefix of the samples, in rising index order: DESIGN CHOICE, log 31; R11 and R58 leave the order open), which work
units (groups of Pack, input bytes of Unpack and bitrev) have been computed, in the order of
computing, and which OBUF bytes have been written. -/
structure Progress where
  scanned : Nat
  done : List Nat
  written : Memory
  deriving DecidableEq, Repr

/-- Nothing done yet. -/
def Progress.empty : Progress := ⟨0, [], []⟩

/-- How HOST names the command it presents: as a word (R22), or written (R83, R84). -/
inductive CommandForm where
  | word (w : CmdWord)
  | written (t : Source)
  deriving DecidableEq, Repr

/-- The input buffer HOST presents: bytes of its own, or the previous response's OBUF (R83, R209). -/
inductive Input where
  | buffer (bytes : List Byte)
  | previous
  deriving DecidableEq, Repr

/-- Where the platform places the two buffers: apart, or in one shared memory at two base addresses
(R54, R69, R206). -/
inductive Placement where
  | separate
  | shared (ibufAt obufAt : Nat)
  deriving DecidableEq, Repr

/-- What HOST can read (R27, R33): BUSY, the fields of the response, an OBUF byte, and a byte of the OBUF of a
command abandoned by reset (R202). -/
inductive HostRead where
  | busy
  | status
  | errinfo
  | length
  | output (j : Nat)
  | abandoned (j : Nat)
  deriving DecidableEq, Repr

/-- What HOST, or the platform, can do. -/
inductive HostAction where
  /-- Present a command (R22, R23). -/
  | present (form : CommandForm) (input : Input) (place : Placement)
  /-- Read a field the block shows to HOST. -/
  | read (what : HostRead)
  /-- Store a byte into the input buffer (R205). -/
  | changeInput (i : Nat) (b : Byte)
  /-- Raise reset (R200). -/
  | reset
  deriving DecidableEq, Repr

/-- What CORE can do next with the command in flight (R36, R58): scan one more sample, compute one work unit,
or do all that is left and deliver the response. -/
inductive CoreTurn where
  | scan
  | unit (u : Nat)
  | respond
  deriving DecidableEq, Repr

/-- One turn of one of the two agents (R20). -/
inductive Turn where
  | host (a : HostAction)
  | core (t : CoreTurn)
  deriving DecidableEq, Repr

/-- The whole state. -/
structure State where
  /-- `BUSY` (R23). -/
  busy : Bool
  /-- `CMD`, `N`, `IBUF`: held from acceptance to response only (R27). -/
  command : Option Command
  /-- Hidden state (R36), empty while no command is in flight. -/
  progress : Progress
  /-- `STATUS`, `ERRINFO`, `L`, `OBUF`: the response last delivered, until the next command is accepted or the
  block is reset (R26, R27; log 6). -/
  response : Option Response
  /-- The OBUF of a command abandoned by reset (R202; log 8). -/
  abandoned : Option Memory
  /-- The parameters of R7; no step changes them (log 1). -/
  config : Config
  /-- The model's own: how many free bytes have been drawn (log 7). -/
  draws : Nat
  /-- The model's own: the turns HOST and CORE take next, the first one first (R20, D26; log 5). -/
  turns : List Turn
  /-- The model's own: the value HOST last read (log 10). -/
  hostSaw : Option Nat
  deriving DecidableEq, Repr

/-- The machine right after reset (R37, R201): `BUSY = 0`, no command held, no response pending. The
parameters stand at their defaults (R7; log 2); the model's own fields are empty (logs 5, 7, 10). -/
def State.reset : State :=
  { busy := false
    command := none
    progress := Progress.empty
    response := none
    abandoned := none
    config := Config.default
    draws := 0
    turns := []
    hostSaw := none }

/-- What stops the machine: reads that have no value or no step. Every one is safe (the model stops; the spec
gives no value). -/
inductive Fault where
  /-- CORE reads CMD, N or IBUF while no command is held (R37; 93_implementation_defined.md row 17). Raised by
  every meaning; safe. -/
  | noCommandHeld
  /-- An IBUF index at which no byte was supplied (R53). Raised by `memRead`; safe. -/
  | noInputByte (i : Nat)
  /-- HOST reads STATUS, ERRINFO or L while no response is held (R37; row 17), or OBUF while no response is held and
  no command in flight. Raised by `hostRead`; safe. -/
  | noResponseHeld
  /-- HOST reads OBUF before the response: the read has no step (R189, R207; row 11). Raised by `hostRead`; safe. -/
  | outputBeforeResponse
  /-- HOST reads an OBUF index `>= L` (R50, R53). Raised by `hostRead`; safe. -/
  | noOutputByte (j : Nat)
  /-- HOST reads the OBUF of an abandoned command where there is none, or past its end (R202). Raised by
  `hostRead`; safe. -/
  | noAbandonedByte (j : Nat)
  /-- A STATUS of 5 to 255 is seen (row 16: a model that sees one must fault). Raised by `hostRead`; safe. -/
  | illegalStatus (code : Nat)
  deriving DecidableEq, Repr

/-- What the model gives no step: violations of a HOST duty (60_exceptions.md R189). Every one is safe (toward
unprovable, R189). -/
inductive Refusal where
  /-- No meaning yet for the instruction of this mnemonic. Raised by `exec`'s arms only; safe. -/
  | notModelled (mnemonic : String)
  /-- A command presented while `BUSY = 1` (R189, R204). Raised by `present`; safe. -/
  | commandWhileBusy
  /-- IBUF changed while `BUSY = 1` (R189, R205). Raised by `changeInput`; safe. -/
  | inputChangedWhileBusy
  /-- IBUF and OBUF overlap (R189, R206). Raised by `present`; safe. -/
  | buffersOverlap
  /-- `N` or the output length above `MAX_LEN` (R189, R210). Raised by `present`; safe. -/
  | lengthAboveMax (len : Nat)
  /-- A width that does not fit the NBITS field: it has no step at the HOST boundary (R210; row 12). Raised by
  `present`; safe. -/
  | widthBeyondField
  /-- The previous output is asked for and none is held (R209; log 18). Raised by `present`; safe. -/
  | noPreviousOutput
  deriving DecidableEq, Repr

end Sys2Proof.Machine
end

