-- ==== Sys2Proof/Machine/Flags.lean ====
section
/-! DEFINITION. The block has no flags (10_state.md R32): the only outcome beside the output buffer is STATUS.
Here are the status codes and the error information of 60_exceptions.md R170. -/

namespace Sys2Proof.Machine

/-- The four errors of R170, each with what its ERRINFO reports. -/
inductive CoreError where
  /-- R171: the NBITS value. -/
  | invalidBitWidth (nbits : Nat)
  /-- R172: `N`. -/
  | invalidLength (n : Nat)
  /-- R173: the lowest index of an out-of-range sample. -/
  | outOfRangeSample (i : Nat)
  /-- R174: the whole command word. -/
  | invalidCommand (w : CmdWord)
  deriving DecidableEq, Repr

/-- `STATUS` of a successful operation (R170). -/
def statusOk : Byte := 0

/-- `code(E)` (R170, R180). -/
def CoreError.code : CoreError → Byte
  | .invalidBitWidth _ => 1
  | .invalidLength _ => 2
  | .outOfRangeSample _ => 3
  | .invalidCommand _ => 4

/-- `ERRINFO` of the error (R170, R180). -/
def CoreError.info : CoreError → Nat
  | .invalidBitWidth nb => nb
  | .invalidLength n => n
  | .outOfRangeSample i => i
  | .invalidCommand w => w.toNat

/-- The largest STATUS code the block produces (R170: codes 5 to 255 are never produced). -/
def statusMax : Nat := 4

end Sys2Proof.Machine
end

