-- ==== Sys2Proof/Machine/Operands.lean ====
section
/-! DEFINITION. Operands: the constant tables (10_state.md R28, R29; 30_encoding.md R77, R78), bit reversal
(40_bit_reverse.md R100 to R104), field extraction (42_unpack.md R151) and the conditioning and assembly of
samples (41_pack.md R121, R123, R124). -/

namespace Sys2Proof.Machine

/-- `trunc8(v) = v mod 256` (R9). -/
def trunc8 (v : Nat) : Byte := BitVec.ofNat 8 v

/-! ### FIELD_TABLE -/

/-- One row of FIELD_TABLE (R29). -/
structure FieldRow where
  k : Nat
  fmask : Nat
  masks : List Nat
  shifts : List Nat
  deriving DecidableEq, Repr

/-- `FIELD_TABLE` (R29, R78): one table for both units (90_conflicts.md C6). -/
def fieldTable : Width → FieldRow
  | .one => ⟨8, 0x01, [0x80, 0x40, 0x20, 0x10, 0x08, 0x04, 0x02, 0x01], [7, 6, 5, 4, 3, 2, 1, 0]⟩
  | .two => ⟨4, 0x03, [0xC0, 0x30, 0x0C, 0x03], [6, 4, 2, 0]⟩
  | .four => ⟨2, 0x0F, [0xF0, 0x0F], [4, 0]⟩

/-- `K(n)`, samples per packed byte (R12, R29). -/
def samplesPerByte (n : Width) : Nat := (fieldTable n).k

/-- `FMASK(n)`, the mask of one sample (R12, R29). -/
def fmask (n : Width) : Nat := (fieldTable n).fmask

/-- `SH(n, j)` for `0 <= j < K(n)`, the shifts of the fields in order (R12, R29). -/
def shifts (n : Width) : List Nat := (fieldTable n).shifts

/-! ### Bit reversal -/

/-- `rev8(x)`, the sum over j in 0..7 of `((x >> (7 - j)) & 1) << j` (R100). -/
def rev8 (x : Byte) : Byte :=
  trunc8 (((List.range 8).map fun j => ((x.toNat >>> (7 - j)) &&& 1) <<< j).sum)

/-- `BRLUT`, the 256 entries (R28, R102), row by row as 95_test_vectors.md section 2.1 lists them. -/
def brlut : List Byte :=
  [0x00, 0x80, 0x40, 0xC0, 0x20, 0xA0, 0x60, 0xE0, 0x10, 0x90, 0x50, 0xD0, 0x30, 0xB0, 0x70, 0xF0] ++
  [0x08, 0x88, 0x48, 0xC8, 0x28, 0xA8, 0x68, 0xE8, 0x18, 0x98, 0x58, 0xD8, 0x38, 0xB8, 0x78, 0xF8] ++
  [0x04, 0x84, 0x44, 0xC4, 0x24, 0xA4, 0x64, 0xE4, 0x14, 0x94, 0x54, 0xD4, 0x34, 0xB4, 0x74, 0xF4] ++
  [0x0C, 0x8C, 0x4C, 0xCC, 0x2C, 0xAC, 0x6C, 0xEC, 0x1C, 0x9C, 0x5C, 0xDC, 0x3C, 0xBC, 0x7C, 0xFC] ++
  [0x02, 0x82, 0x42, 0xC2, 0x22, 0xA2, 0x62, 0xE2, 0x12, 0x92, 0x52, 0xD2, 0x32, 0xB2, 0x72, 0xF2] ++
  [0x0A, 0x8A, 0x4A, 0xCA, 0x2A, 0xAA, 0x6A, 0xEA, 0x1A, 0x9A, 0x5A, 0xDA, 0x3A, 0xBA, 0x7A, 0xFA] ++
  [0x06, 0x86, 0x46, 0xC6, 0x26, 0xA6, 0x66, 0xE6, 0x16, 0x96, 0x56, 0xD6, 0x36, 0xB6, 0x76, 0xF6] ++
  [0x0E, 0x8E, 0x4E, 0xCE, 0x2E, 0xAE, 0x6E, 0xEE, 0x1E, 0x9E, 0x5E, 0xDE, 0x3E, 0xBE, 0x7E, 0xFE] ++
  [0x01, 0x81, 0x41, 0xC1, 0x21, 0xA1, 0x61, 0xE1, 0x11, 0x91, 0x51, 0xD1, 0x31, 0xB1, 0x71, 0xF1] ++
  [0x09, 0x89, 0x49, 0xC9, 0x29, 0xA9, 0x69, 0xE9, 0x19, 0x99, 0x59, 0xD9, 0x39, 0xB9, 0x79, 0xF9] ++
  [0x05, 0x85, 0x45, 0xC5, 0x25, 0xA5, 0x65, 0xE5, 0x15, 0x95, 0x55, 0xD5, 0x35, 0xB5, 0x75, 0xF5] ++
  [0x0D, 0x8D, 0x4D, 0xCD, 0x2D, 0xAD, 0x6D, 0xED, 0x1D, 0x9D, 0x5D, 0xDD, 0x3D, 0xBD, 0x7D, 0xFD] ++
  [0x03, 0x83, 0x43, 0xC3, 0x23, 0xA3, 0x63, 0xE3, 0x13, 0x93, 0x53, 0xD3, 0x33, 0xB3, 0x73, 0xF3] ++
  [0x0B, 0x8B, 0x4B, 0xCB, 0x2B, 0xAB, 0x6B, 0xEB, 0x1B, 0x9B, 0x5B, 0xDB, 0x3B, 0xBB, 0x7B, 0xFB] ++
  [0x07, 0x87, 0x47, 0xC7, 0x27, 0xA7, 0x67, 0xE7, 0x17, 0x97, 0x57, 0xD7, 0x37, 0xB7, 0x77, 0xF7] ++
  [0x0F, 0x8F, 0x4F, 0xCF, 0x2F, 0xAF, 0x6F, 0xEF, 0x1F, 0x9F, 0x5F, 0xDF, 0x3F, 0xBF, 0x7F, 0xFF]

/-- `BRLUT[x]` (R101). The table has 256 entries, so an index of 8 bits always has one. -/
def brlutAt (x : Byte) : Byte := brlut.getD x.toNat 0

/-- `M1` (R78, R103). -/
def mulConst : Nat := 0x0202020202

/-- `M2` (R78, R103). -/
def andConst : Nat := 0x010884422010

/-- `WIDE`, the width of the formula's intermediate (R7, R104; corrected to 41 by C1). -/
def wideBits : Nat := 41

/-- The formula of R103 with the product kept to `width` bits (R104). -/
def revFormula (width : Nat) (x : Byte) : Nat :=
  ((x.toNat * mulConst % 2 ^ width) &&& andConst) % 1023

/-- One byte through unit bit_reversal_lut, as `BITREV_IMPL` builds it (R7, R28, R103; log 30). -/
def reverseByte (cfg : Config) (x : Byte) : Byte :=
  match cfg.bitrevImpl with
  | .lut => brlutAt x
  | .formula => trunc8 (revFormula wideBits x)

/-! ### Samples and fields -/

/-- `cond(s, n, pol)` (R123). -/
def condition (n : Width) (pol : Policy) (s : Nat) : Nat :=
  match pol with
  | .trust => s
  | .mask => s &&& fmask n
  | .strict => s

/-- The OR over j of `s_j << SH(n, j)` (R121): the first sample takes the highest field (R55). -/
def orFields (n : Width) (samples : List Nat) : Nat :=
  (List.zipWith (fun s sh => s <<< sh) samples (shifts n)).foldl (fun v x => v ||| x) 0

/-- The group has an out-of-range sample (R14, R124). -/
def outOfRange (n : Width) (samples : List Nat) : Bool := samples.any fun s => decide (fmask n < s)

/-- Whether TRUST pack draws free bytes at all (R7, R124). -/
def drawsFree (cfg : Config) (pol : Policy) : Bool :=
  decide (pol = .trust) && decide (cfg.oorTrust = .any)

/-- `pack_byte(v, g)` of the group with these samples (R124); `draw` is the number of the group's free byte. -/
def packByte (cfg : Config) (n : Width) (pol : Policy) (draw : Nat) (samples : List Nat) : Byte :=
  if drawsFree cfg pol && outOfRange n samples then Config.freeByte draw
  else trunc8 (orFields n (samples.map (condition n pol)))

/-- The K(n) fields of a packed byte, `(b >> SH(n, j)) & FMASK(n)` for j in order (R150, R151). -/
def unpackFields (n : Width) (b : Byte) : List Byte :=
  (shifts n).map fun sh => trunc8 ((b.toNat >>> sh) &&& fmask n)

end Sys2Proof.Machine
end

