-- ==== Sys2Proof/Machine/Ops.lean ====
section
/-! DEFINITION. The named operations the meanings share: reading and writing one byte (20_memory.md R50 to
R54), delivering a response (10_state.md R26), ending a command with an error (60_exceptions.md R180), and
performing an operation by its work units (R58, R59, R186). -/

namespace Sys2Proof.Machine

/-! ### Memory -/

/-- The byte at an index, if one is listed. -/
def Memory.read : Memory → Nat → Option Byte
  | [], _ => none
  | (k, v) :: m, a => if a = k then some v else Memory.read m a

/-- Write one byte, keeping the indices strictly rising. -/
def Memory.write : Memory → Nat → Byte → Memory
  | [], a, b => [(a, b)]
  | (k, v) :: m, a, b =>
    if a < k then (a, b) :: (k, v) :: m
    else if a = k then (a, b) :: m
    else (k, v) :: Memory.write m a b

/-- The canonical form: every index below all the later ones. -/
def Memory.wf : Memory → Bool
  | [] => true
  | (k, _) :: m => m.all (fun c => decide (k < c.1)) && Memory.wf m

/-- The memory holds exactly the indices `0 .. len-1` (R22, R26, R50). -/
def Memory.full (m : Memory) (len : Nat) : Bool := decide (m.map Prod.fst = List.range len)

/-- Consecutive cells from an index on. -/
def cellsFrom (a : Nat) : List Byte → List Host.Cell
  | [] => []
  | b :: bs => (a, b) :: cellsFrom (a + 1) bs

/-- A buffer as HOST supplies it: index 0 is the first element (R10, R22). -/
def Memory.ofBytes (bytes : List Byte) : Memory := cellsFrom 0 bytes

/-- The bytes of a buffer in index order (R10). -/
def Memory.bytes (m : Memory) : List Byte := m.map Prod.snd

/-- `MemRead(IBUF:i, 1)` (R11, R51, R53). -/
def memRead (c : Command) (i : Nat) : Except Fault Byte :=
  if i < c.n then
    match Memory.read c.ibuf i with
    | some b => .ok b
    | none => .error (.noInputByte i)
  else .error (.noInputByte i)

/-- `MemRead(IBUF:i, 1)` for `count` consecutive indices, in rising order (DESIGN CHOICE, log 31). -/
def memReadRun (c : Command) : (start count : Nat) → Except Fault (List Nat)
  | _, 0 => .ok []
  | i, k + 1 =>
    match memRead c i with
    | .error f => .error f
    | .ok b =>
      match memReadRun c (i + 1) k with
      | .error f => .error f
      | .ok bs => .ok (b.toNat :: bs)

/-- `MemWrite(OBUF:j, 1, v)` for each cell in turn (R11, R52; log 31). -/
def writeCells (m : Memory) (cells : List Host.Cell) : Memory :=
  cells.foldl (fun m c => Memory.write m c.1 c.2) m

/-! ### Responses -/

/-- `respond(OK, L)` with the bytes written (R11, R26). -/
def okResponse (len : Nat) (obuf : Memory) : Response := ⟨statusOk, 0, len, obuf⟩

/-- The error response of R180: `L = 0`, no OBUF byte. -/
def errorResponse (e : CoreError) : Response := ⟨e.code, e.info, 0, []⟩

/-- Deliver a response: `BUSY <- 0`, and the command and CORE's progress through it end (R23, R27). -/
def State.deliver (s : State) (r : Response) : State :=
  { s with busy := false, command := none, progress := Progress.empty, response := some r }

/-- `raise E(info)` (R11, R180): the one shared way a command ends in an error. Nothing is saved, no mode
changes, control passes nowhere (R179), and the block is ready for the next command at once (R181). -/
def State.raise (s : State) (e : CoreError) : State := s.deliver (errorResponse e)

/-- Accept a command (R23): `BUSY <- 1`; an earlier response and an abandoned OBUF end here (logs 6, 8). -/
def State.accept (s : State) (c : Command) : State :=
  { s with
    busy := true
    command := some c
    progress := Progress.empty
    response := none
    abandoned := none }

/-! ### Performing an operation -/

/-- What the shared operation needs to know of one operation. -/
structure Operation where
  /-- The check of `N` (R126), made first. -/
  lengthError : Nat → Option CoreError
  /-- The largest in-range sample, where the operation scans its input (R125). -/
  scanLimit : Option Nat
  /-- How many work units `N` input bytes make (R58, R186): groups of Pack, bytes of Unpack and bitrev. -/
  units : Nat → Nat
  /-- The length law (R101, R122, R152). -/
  length : Nat → Nat
  /-- The OBUF cells of one work unit (R59), from the free bytes numbered from the given counter on. -/
  unit : Config → Nat → Command → Nat → Except Fault (List Host.Cell)
  /-- Whether it draws free bytes (R124). -/
  draws : Config → Bool

/-- The STRICT range scan over `count` samples from index `i` on: the lowest index whose sample is above
the limit (R120, R125). It reads in rising index order and stops at the first bad sample: DESIGN CHOICE, log 31
(R11 and R58 leave the order of the reads open, R177 speaks of a full scan). -/
def scanFrom (c : Command) (limit : Nat) : (i count : Nat) → Except Fault (Option Nat)
  | _, 0 => .ok none
  | i, k + 1 =>
    match memRead c i with
    | .error f => .error f
    | .ok b => if limit < b.toNat then .ok (some i) else scanFrom c limit (i + 1) k

/-- The checks made before any OBUF byte is written, in the order of R176 and R177: the length, then the
range scan, from where it has got. -/
def Operation.check (o : Operation) (c : Command) (scanned : Nat) : Except Fault (Option CoreError) :=
  match o.lengthError c.n with
  | some e => .ok (some e)
  | none =>
    match o.scanLimit with
    | none => .ok none
    | some limit =>
      match scanFrom c limit scanned (c.n - scanned) with
      | .error f => .error f
      | .ok none => .ok none
      | .ok (some i) => .ok (some (.outOfRangeSample i))

/-- Compute the given work units, one after the other, writing each one's cells. -/
def runUnits (unit : Nat → Except Fault (List Host.Cell)) : List Nat → Memory → Except Fault Memory
  | [], m => .ok m
  | u :: us, m =>
    match unit u with
    | .error f => .error f
    | .ok cells => runUnits unit us (writeCells m cells)

/-- How many lanes share `units` work units: `LANES`, at least one, at most one a unit (R186; log 3). -/
def lanesFor (lanes units : Nat) : Nat := min (max lanes 1) (max units 1)

/-- How many work units the longest lane has: `units / lanes`, rounded up. -/
def chunkOf (lanes units : Nat) : Nat := (units + lanesFor lanes units - 1) / lanesFor lanes units

/-- The order in which the lanes compute the work units: the buffer is cut into contiguous chunks, one a lane,
and the lanes advance together (R58, R186; log 3). No rule can observe it. -/
def workOrder (lanes units : Nat) : List Nat :=
  (List.range (chunkOf lanes units)).flatMap fun r =>
    ((List.range (lanesFor lanes units)).map fun l => l * chunkOf lanes units + r).filter (· < units)

/-- The work units that CORE has not computed yet. -/
def remainingUnits (o : Operation) (s : State) (c : Command) : List Nat :=
  (workOrder s.config.lanes (o.units c.n)).filter (· ∉ s.progress.done)

/-- Count the free bytes an operation with `len` output bytes has drawn (log 7). -/
def State.drew (s : State) (o : Operation) (len : Nat) : State :=
  { s with draws := if o.draws s.config then s.draws + len else s.draws }

/-- Perform the command in flight from where CORE has got to its response (R24, R61): the checks, then every
work unit that is left, then `respond(OK, L)`. -/
def perform (o : Operation) (s : State) : Host.Outcome State Fault Refusal :=
  match s.command with
  | none => .fault .noCommandHeld
  | some c =>
    match o.check c s.progress.scanned with
    | .error f => .fault f
    | .ok (some e) => .next (s.raise e)
    | .ok none =>
      match runUnits (o.unit s.config s.draws c) (remainingUnits o s c) s.progress.written with
      | .error f => .fault f
      | .ok m => .next ((s.drew o (o.length c.n)).deliver (okResponse (o.length c.n) m))

end Sys2Proof.Machine
end

