-- ==== Sys2Proof/Machine/Bitrev.lean ====
section
/-! DEFINITION. Unit bit_reversal_lut: `bitrev` (40_bit_reverse.md R101). -/

namespace Sys2Proof.Machine

/-- Byte `i` of `bitrev`: `x <- MemRead(IBUF:i)`, `MemWrite(OBUF:i, BRLUT[x])` (R101). -/
def bitrevUnit (cfg : Config) (_draws : Nat) (c : Command) (i : Nat) : Except Fault (List Host.Cell) :=
  match memRead c i with
  | .error f => .error f
  | .ok x => .ok [(i, reverseByte cfg x)]

/-- `bitrev` (R101): no error of its own, one byte in, one byte out. -/
def bitrevOp : Operation :=
  { lengthError := fun _ => none
    scanLimit := none
    units := fun n => n
    length := fun n => n
    unit := bitrevUnit
    draws := fun _ => false }

/-- `bitrev` (R101). Its ignored fields reach no part of the meaning (R76, R106). -/
def execBitrev (s : State) : Host.Outcome State Fault Refusal := perform bitrevOp s

end Sys2Proof.Machine
end

