-- ==== Sys2Proof/Machine/Pack.lean ====
section
/-! DEFINITION. Unit pack_bit_field_encoder: `pack.n` under each policy (41_pack.md R120 to R129). -/

namespace Sys2Proof.Machine

/-- The length check (R126): `N mod K(n) != 0` is InvalidLength, whatever the policy. -/
def packLengthError (n : Width) (len : Nat) : Option CoreError :=
  if len % samplesPerByte n = 0 then none else some (.invalidLength len)

/-- The range scan is made under STRICT only (R125). -/
def packScanLimit (n : Width) (pol : Policy) : Option Nat :=
  match pol with
  | .trust => none
  | .mask => none
  | .strict => some (fmask n)

/-- Group `g` (R120, R121): its K(n) samples make OBUF byte `g`. Its free byte, if it takes one, is the
counter's plus `g` (R124; log 7). -/
def packUnit (n : Width) (pol : Policy) (cfg : Config) (draws : Nat) (c : Command) (g : Nat) :
    Except Fault (List Host.Cell) :=
  match memReadRun c (g * samplesPerByte n) (samplesPerByte n) with
  | .error f => .error f
  | .ok samples => .ok [(g, packByte cfg n pol (draws + g) samples)]

/-- `pack` with a legal width and a policy (R120): `L = N / K(n)` (R122). -/
def packOp (n : Width) (pol : Policy) : Operation :=
  { lengthError := packLengthError n
    scanLimit := packScanLimit n pol
    units := fun len => len / samplesPerByte n
    length := fun len => len / samplesPerByte n
    unit := packUnit n pol
    draws := fun cfg => drawsFree cfg pol }

/-- `pack.1.trust` (R127). -/
def execPack1Trust (s : State) : Host.Outcome State Fault Refusal := perform (packOp .one .trust) s

/-- `pack.1.mask` (R127). -/
def execPack1Mask (s : State) : Host.Outcome State Fault Refusal := perform (packOp .one .mask) s

/-- `pack.1.strict` (R127). -/
def execPack1Strict (s : State) : Host.Outcome State Fault Refusal := perform (packOp .one .strict) s

/-- `pack.2.trust` (R128). -/
def execPack2Trust (s : State) : Host.Outcome State Fault Refusal := perform (packOp .two .trust) s

/-- `pack.2.mask` (R128). -/
def execPack2Mask (s : State) : Host.Outcome State Fault Refusal := perform (packOp .two .mask) s

/-- `pack.2.strict` (R128). -/
def execPack2Strict (s : State) : Host.Outcome State Fault Refusal := perform (packOp .two .strict) s

/-- `pack.4.trust` (R129). -/
def execPack4Trust (s : State) : Host.Outcome State Fault Refusal := perform (packOp .four .trust) s

/-- `pack.4.mask` (R129). -/
def execPack4Mask (s : State) : Host.Outcome State Fault Refusal := perform (packOp .four .mask) s

/-- `pack.4.strict` (R129). -/
def execPack4Strict (s : State) : Host.Outcome State Fault Refusal := perform (packOp .four .strict) s

end Sys2Proof.Machine
end

