-- ==== Sys2Proof/Machine/Unpack.lean ====
section
/-! DEFINITION. Unit unpack_bit_field_decoder: `unpack.n` (42_unpack.md R150 to R155). -/

namespace Sys2Proof.Machine

/-- Input byte `i` (R150, R151): its K(n) fields make OBUF bytes `i*K(n)` on. -/
def unpackUnit (n : Width) (_cfg : Config) (_draws : Nat) (c : Command) (i : Nat) :
    Except Fault (List Host.Cell) :=
  match memRead c i with
  | .error f => .error f
  | .ok b => .ok (cellsFrom (i * samplesPerByte n) (unpackFields n b))

/-- `unpack` with a legal width (R150): no error of its own, `L = N * K(n)` (R152). -/
def unpackOp (n : Width) : Operation :=
  { lengthError := fun _ => none
    scanLimit := none
    units := fun len => len
    length := fun len => len * samplesPerByte n
    unit := unpackUnit n
    draws := fun _ => false }

/-- `unpack.1` (R153). -/
def execUnpack1 (s : State) : Host.Outcome State Fault Refusal := perform (unpackOp .one) s

/-- `unpack.2` (R154). -/
def execUnpack2 (s : State) : Host.Outcome State Fault Refusal := perform (unpackOp .two) s

/-- `unpack.4` (R155). -/
def execUnpack4 (s : State) : Host.Outcome State Fault Refusal := perform (unpackOp .four) s

end Sys2Proof.Machine
end

