-- ==== Sys2Proof/Machine/Dispatch.lean ====
section
/-! DEFINITION. One arm per command of the opcode map (30_encoding.md R79). -/

namespace Sys2Proof.Machine

def exec (i : Instr) (s : State) : Host.Outcome State Fault Refusal :=
  match i with
  | .bitrev _ _ => Sys2Proof.Machine.execBitrev s
  | .pack1Trust => Sys2Proof.Machine.execPack1Trust s
  | .pack1Mask => Sys2Proof.Machine.execPack1Mask s
  | .pack1Strict => Sys2Proof.Machine.execPack1Strict s
  | .pack2Trust => Sys2Proof.Machine.execPack2Trust s
  | .pack2Mask => Sys2Proof.Machine.execPack2Mask s
  | .pack2Strict => Sys2Proof.Machine.execPack2Strict s
  | .pack4Trust => Sys2Proof.Machine.execPack4Trust s
  | .pack4Mask => Sys2Proof.Machine.execPack4Mask s
  | .pack4Strict => Sys2Proof.Machine.execPack4Strict s
  | .unpack1 _ => Sys2Proof.Machine.execUnpack1 s
  | .unpack2 _ => Sys2Proof.Machine.execUnpack2 s
  | .unpack4 _ => Sys2Proof.Machine.execUnpack4 s

end Sys2Proof.Machine
end

