-- ==== Sys2Proof/Machine/CoreSide.lean ====
section
/-! DEFINITION. CORE's turns with the command in flight: decoding and performing it to its response
(30_encoding.md R75, 10_state.md R24), and the hidden work CORE may do ahead of the response (R36, R58). -/

namespace Sys2Proof.Machine

/-- The operation of an instruction, for the work CORE does ahead of the response. -/
def operationOf : Instr → Operation
  | .bitrev _ _ => bitrevOp
  | .pack1Trust => packOp .one .trust
  | .pack1Mask => packOp .one .mask
  | .pack1Strict => packOp .one .strict
  | .pack2Trust => packOp .two .trust
  | .pack2Mask => packOp .two .mask
  | .pack2Strict => packOp .two .strict
  | .pack4Trust => packOp .four .trust
  | .pack4Mask => packOp .four .mask
  | .pack4Strict => packOp .four .strict
  | .unpack1 _ => unpackOp .one
  | .unpack2 _ => unpackOp .two
  | .unpack4 _ => unpackOp .four

/-- Perform the command in flight to its response (R24, R25): decode its word, then the operation it names; a
word that is no legal command ends in its error (R80, R171, R174). -/
def runCommand (s : State) : Host.Outcome State Fault Refusal :=
  match s.command with
  | none => .fault .noCommandHeld
  | some c =>
    match decode c.cmd with
    | .instr i => exec i s
    | .invalidCommand w => .next (s.raise (.invalidCommand w))
    | .invalidBitWidth nb => .next (s.raise (.invalidBitWidth nb))

/-- The command in flight with its operation, where its word is a legal command. -/
def State.inFlight (s : State) : Option (Command × Operation) :=
  match s.command with
  | none => none
  | some c =>
    match decode c.cmd with
    | .instr i => some (c, operationOf i)
    | .invalidCommand _ => none
    | .invalidBitWidth _ => none

/-- CORE scans one more sample, the next one in rising index order, one a turn, and never passes a bad sample (DESIGN
CHOICE, log 31: R11, R36 and R58 leave the order of the reads open), where a range scan is due (the length is legal,
R125) and the sample is in range; nothing happens otherwise (log 27). -/
def scanOne (s : State) : Host.Outcome State Fault Refusal :=
  match s.inFlight with
  | none => .next s
  | some (c, o) =>
    match o.lengthError c.n, o.scanLimit with
    | none, some limit =>
      if s.progress.scanned < c.n then
        match memRead c s.progress.scanned with
        | .error f => .fault f
        | .ok b =>
          if limit < b.toNat then .next s
          else .next { s with progress := { s.progress with scanned := s.progress.scanned + 1 } }
      else .next s
    | _, _ => .next s

/-- The checks that come before the first write have all passed (R125, R177). -/
def Operation.mayWrite (o : Operation) (c : Command) (scanned : Nat) : Bool :=
  (o.lengthError c.n).isNone && (o.scanLimit.isNone || decide (c.n ≤ scanned))

/-- CORE computes work unit `u`, where the checks have passed and `u` is a unit not yet computed (R58, R60,
R177); nothing happens otherwise (log 27). -/
def computeUnit (u : Nat) (s : State) : Host.Outcome State Fault Refusal :=
  match s.inFlight with
  | none => .next s
  | some (c, o) =>
    if o.mayWrite c s.progress.scanned ∧ u < o.units c.n ∧ u ∉ s.progress.done then
      match o.unit s.config s.draws c u with
      | .error f => .fault f
      | .ok cells =>
        .next { s with progress :=
          { s.progress with
            done := s.progress.done ++ [u]
            written := writeCells s.progress.written cells } }
    else .next s

/-- One turn of CORE. With no command in flight it stays idle (R188, R203). -/
def coreTurn (t : CoreTurn) (s : State) : Host.Outcome State Fault Refusal :=
  if s.busy then
    match t with
    | .scan => scanOne s
    | .unit u => computeUnit u s
    | .respond => runCommand s
  else .next s

end Sys2Proof.Machine
end

