-- ==== Sys2Proof/Machine/HostSide.lean ====
section
/-! DEFINITION. HOST's turns: presenting a command (10_state.md R22, R23), reading what the block shows (R27,
R33), storing into the input buffer (70_reset_and_hazards.md R205) and reset (R200, R202). -/

namespace Sys2Proof.Machine

/-- The output length of a command's response (R26, R122, R152): 0 where it ends in an error. -/
def outputLength (c : Command) : Nat :=
  match decode c.cmd with
  | .invalidCommand _ => 0
  | .invalidBitWidth _ => 0
  | .instr i =>
    match (operationOf i).check c 0 with
    | .ok none => (operationOf i).length c.n
    | .ok (some _) => 0
    | .error _ => 0

/-- The command word of a command form; none where the width does not fit NBITS (R74, R210). -/
def CommandForm.cmdWord : CommandForm → Option CmdWord
  | .word w => some w
  | .written t => t.expand.assemble

/-- The input buffer that is presented (R209); none where the previous output is asked for and no response is
held (log 18). -/
def Input.bytes (s : State) : Input → Option (List Byte)
  | .buffer bytes => some bytes
  | .previous => s.response.map fun r => Memory.bytes r.obuf

/-- Some byte of the shared memory would belong to both buffers (R69, R206). -/
def Placement.overlaps (p : Placement) (inLen outLen : Nat) : Bool :=
  match p with
  | .separate => false
  | .shared ibufAt obufAt =>
    decide (max ibufAt obufAt < min (ibufAt + inLen) (obufAt + outLen))

/-- HOST presents a command: refused while `BUSY = 1` (R204) and where it breaks a HOST duty (R189, R206, R210);
otherwise accepted (R23). -/
def present (form : CommandForm) (input : Input) (place : Placement) (s : State) :
    Host.Outcome State Fault Refusal :=
  if s.busy then .refused .commandWhileBusy
  else
    match form.cmdWord with
    | none => .refused .widthBeyondField
    | some w =>
      match input.bytes s with
      | none => .refused .noPreviousOutput
      | some bytes =>
        let c : Command := ⟨w, bytes.length, Memory.ofBytes bytes⟩
        if ¬ s.config.allows c.n then .refused (.lengthAboveMax c.n)
        else if ¬ s.config.allows (outputLength c) then .refused (.lengthAboveMax (outputLength c))
        else if place.overlaps c.n (outputLength c) then .refused .buffersOverlap
        else .next (s.accept c)

/-- The value of a field of the response; reading it while no response is held gives nothing (R37). -/
def readResponse (s : State) (field : Response → Except Fault Nat) : Except Fault Nat :=
  match s.response with
  | none => .error .noResponseHeld
  | some r => field r

/-- `STATUS` as HOST reads it: 5 to 255 are never produced, and a model that sees one faults (R170;
93_implementation_defined.md row 16). -/
def readStatus (r : Response) : Except Fault Nat :=
  if r.status.toNat ≤ statusMax then .ok r.status.toNat else .error (.illegalStatus r.status.toNat)

/-- `OBUF[j]` as HOST reads it (R50). -/
def readOutput (j : Nat) (r : Response) : Except Fault Nat :=
  match Memory.read r.obuf j with
  | some b => .ok b.toNat
  | none => .error (.noOutputByte j)

/-- What HOST reads (R23, R27, R33, R202, R207). -/
def hostRead (what : HostRead) (s : State) : Except Fault Nat :=
  match what with
  | .busy => .ok (if s.busy then 1 else 0)
  | .status => readResponse s readStatus
  | .errinfo => readResponse s fun r => .ok r.errinfo
  | .length => readResponse s fun r => .ok r.len
  | .output j => if s.busy then .error .outputBeforeResponse else readResponse s (readOutput j)
  | .abandoned j =>
    match s.abandoned with
    | none => .error (.noAbandonedByte j)
    | some m =>
      match Memory.read m j with
      | some b => .ok b.toNat
      | none => .error (.noAbandonedByte j)

/-- HOST stores a byte into the input buffer. While a command is in flight a change of an IBUF byte is refused
(R189, R205); otherwise the block holds nothing that changes (R21; log 13). -/
def changeInput (i : Nat) (b : Byte) (s : State) : Host.Outcome State Fault Refusal :=
  match s.command with
  | none => .next s
  | some c =>
    if s.busy ∧ i < c.n ∧ Memory.read c.ibuf i ≠ some b then .refused .inputChangedWhileBusy
    else .next s

/-- `len` bytes of any value, from the free bytes on (R202; log 8). -/
def freeBytes (draws len : Nat) : Memory :=
  Memory.ofBytes ((List.range len).map fun j => Config.freeByte (draws + j))

/-- Reset (R200, R202): `BUSY <- 0`, the command in flight is abandoned with no response, and the bytes of its
OBUF may be anything. The parameters stay, and so do HOST's own turns and what it has read (log 9). -/
def resetEvent (s : State) : State :=
  let after : State :=
    { State.reset with config := s.config, draws := s.draws, turns := s.turns, hostSaw := s.hostSaw }
  match s.busy, s.command with
  | true, some c =>
    { after with
      abandoned := some (freeBytes s.draws (outputLength c))
      draws := s.draws + outputLength c }
  | _, _ => after

/-- One turn of HOST. -/
def hostTurn (a : HostAction) (s : State) : Host.Outcome State Fault Refusal :=
  match a with
  | .present form input place => present form input place s
  | .read what =>
    match hostRead what s with
    | .error f => .fault f
    | .ok v => .next { s with hostSaw := some v }
  | .changeInput i b => changeInput i b s
  | .reset => .next (resetEvent s)

/-- What is left to do when no turn is listed: a command in flight is answered (R212; log 5), an idle block stays
idle (R203). -/
def noTurn (s : State) : Host.Outcome State Fault Refusal :=
  if s.busy then runCommand s else .next s

/-- The state after its first listed turn is taken off the list. -/
def State.dropTurn (s : State) (rest : List Turn) : State := { s with turns := rest }

/-- One turn of either agent (R20). -/
def takeTurn (t : Turn) (s : State) : Host.Outcome State Fault Refusal :=
  match t with
  | .host a => hostTurn a s
  | .core c => coreTurn c s

/-- The command in flight once the word `w` is presented: with the input of the command now in flight, or with an
empty input buffer where none is (log 17). -/
def commandFor (s : State) (w : CmdWord) : Command :=
  match s.command with
  | some c => { c with cmd := w }
  | none => ⟨w, 0, []⟩

end Sys2Proof.Machine
end

