-- ==== Sys2Proof/Machine/Step.lean ====
section
/-! DEFINITION. One step: the next turn of HOST or CORE (10_state.md R20, R23; 20_memory.md R61, R63), and the
placing of a command word where the next step performs it. -/

namespace Sys2Proof.Machine

/-- One step takes the first listed turn; where none is listed, a command in flight is answered and an idle block
stays idle. -/
def step (s : State) : Host.Outcome State Fault Refusal :=
  match s.turns with
  | [] => noTurn s
  | t :: rest => takeTurn t (s.dropTurn rest)

/-- The word `w` accepted as the command in flight, with CORE's response as the next turn (log 17): the block
fetches nothing (R31), so this stands for HOST presenting the command and CORE accepting it (R23). Every
command is one 16-bit word (R82), so the length `nbits` the table gives changes nothing. -/
def State.withFetchWord (s : State) (_nbits w : Nat) : State :=
  (s.accept (commandFor s (BitVec.ofNat 16 w))).dropTurn (.core .respond :: s.turns)

end Sys2Proof.Machine
end

