-- ==== Sys2Proof/Safety.lean ====
section
/-! DEFINITION. What a legal state is, what the claims are stated in, and which HOST scripts keep the HOST duties
of 70_reset_and_hazards.md R204 to R210. -/

namespace Sys2Proof.Machine

/-! ### Legal states -/

/-- IBUF holds exactly the `N` bytes HOST supplied (R22, R50). -/
def Command.wf (c : Command) : Bool := Memory.full c.ibuf c.n

/-- A response as R26 and R170 give it: STATUS 0 to 4; OBUF exactly `L` bytes; ERRINFO 0 on success; `L` 0 on an
error. -/
def Response.wf (r : Response) : Bool :=
  decide (r.status.toNat ≤ statusMax) && Memory.full r.obuf r.len
    && (if r.status = statusOk then decide (r.errinfo = 0) else decide (r.len = 0))

/-- CORE's progress is what some part of the operation's own work leaves (R36): the samples scanned are in range; the
units done are units of the operation, each once; the bytes written are theirs; nothing is written before the
checks have passed (R60, R125, R177). -/
def ProgressFrom (o : Operation) (s : State) (c : Command) : Prop :=
  s.progress.scanned ≤ c.n ∧
  (∀ limit, o.scanLimit = some limit → ∀ i, i < s.progress.scanned →
    ∃ b, Memory.read c.ibuf i = some b ∧ b.toNat ≤ limit) ∧
  s.progress.done.Nodup ∧
  (∀ u ∈ s.progress.done, u < o.units c.n) ∧
  (s.progress.done ≠ [] → o.mayWrite c s.progress.scanned = true) ∧
  runUnits (o.unit s.config s.draws c) s.progress.done [] = .ok s.progress.written

/-- The command in flight, with its input whole and CORE somewhere in its work on instruction `i`: where the
meaning of `i` is to be judged. -/
def State.Performing (s : State) (i : Instr) (c : Command) : Prop :=
  s.command = some c ∧ c.wf = true ∧ ProgressFrom (operationOf i) s c

/-- The command in flight is one that HOST may have presented, and CORE is somewhere in its work on it. -/
def CommandOk (s : State) (c : Command) : Prop :=
  c.wf = true ∧ s.config.allows c.n = true ∧ s.config.allows (outputLength c) = true ∧
  s.response = none ∧ s.abandoned = none ∧
  match decode c.cmd with
  | .instr i => ProgressFrom (operationOf i) s c
  | .invalidCommand _ => s.progress = Progress.empty
  | .invalidBitWidth _ => s.progress = Progress.empty

/-- The invariant of the machine: BUSY says whether a command is held (R23, R27); what is in flight is as HOST
presented it; what has been delivered is a response as R26 has it, no longer than MAX_LEN; nothing is in
progress while the block is idle (R21). -/
def State.Inv (s : State) : Prop :=
  s.busy = s.command.isSome ∧
  (∀ c, s.command = some c → CommandOk s c) ∧
  (s.command = none → s.progress = Progress.empty) ∧
  (∀ r, s.response = some r → r.wf = true ∧ s.config.allows r.len = true) ∧
  (∀ m, s.abandoned = some m → Memory.full m m.length = true ∧ s.config.allows m.length = true)

/-! ### Outcomes -/

/-- The next state, where there is one. -/
def nextOf (o : Host.Outcome State Fault Refusal) : Option State :=
  match o with
  | .next s => some s
  | .fault _ => none
  | .refused _ => none

/-! ### What claims read -/

/-- `IBUF[i]` of a command as a number; 0 outside the buffer, where no claim looks. -/
def Command.byteAt (c : Command) (i : Nat) : Nat := ((Memory.read c.ibuf i).map BitVec.toNat).getD 0

/-- Every sample of the command is in range for the width (R14). -/
def Command.inRange (c : Command) (n : Width) : Prop := ∀ i, i < c.n → c.byteAt i < 2 ^ n.nbits

/-- OBUF holds exactly the bytes `byte 0, …, byte (len - 1)`. -/
def Holds (obuf : Memory) (len : Nat) (byte : Nat → Byte) : Prop :=
  obuf.map Prod.fst = List.range len ∧ ∀ j, j < len → Memory.read obuf j = some (byte j)

/-- The state in which the command in flight has been answered with `r` after drawing `drawn` free bytes: BUSY is
clear, the command and its progress have ended, the response stands, and nothing else has changed. -/
def State.answered (s : State) (r : Response) (drawn : Nat) : State :=
  { s with
    busy := false
    command := none
    progress := Progress.empty
    response := some r
    draws := s.draws + drawn }

/-- The word is in a class that raises InvalidCommand (R80, R174). -/
def badCommand (w : CmdWord) : Prop :=
  cmdOp w = 3 ∨ cmdRsv w ≠ 0 ∨ (cmdOp w = 1 ∧ cmdPolicy w = 3)

/-- The word is in the class that raises InvalidBitWidth (R80, R171). -/
def badWidth (w : CmdWord) : Prop :=
  ¬ badCommand w ∧ (cmdOp w = 1 ∨ cmdOp w = 2) ∧
    cmdNbits w ≠ 1 ∧ cmdNbits w ≠ 2 ∧ cmdNbits w ≠ 4

/-- The word is a legal `pack` whose length check fails on `N` input bytes (R126, R172). -/
def badLength (w : CmdWord) (n : Nat) : Prop :=
  ¬ badCommand w ∧ ¬ badWidth w ∧ cmdOp w = 1 ∧ n % (8 / cmdNbits w) ≠ 0

/-- The command is a legal STRICT `pack` of a legal length whose sample `i` is its first out of range (R125,
R173). -/
def badSample (c : Command) (i : Nat) : Prop :=
  ¬ badCommand c.cmd ∧ ¬ badWidth c.cmd ∧ ¬ badLength c.cmd c.n ∧ cmdOp c.cmd = 1 ∧ cmdPolicy c.cmd = 2 ∧
    i < c.n ∧ 2 ^ cmdNbits c.cmd - 1 < c.byteAt i ∧ ∀ m, m < i → c.byteAt m ≤ 2 ^ cmdNbits c.cmd - 1

/-! ### A HOST that keeps its duties -/

/-- What the HOST duties of R204 to R207, R209 and R210 ask of HOST's action in the state in which it is taken: it
presents a command to an idle block only, with an input that is there, the buffers apart and within MAX_LEN; it reads
the fields of a response that is held, and no OBUF index past `L`; it discards the OBUF of an abandoned command (R202);
it changes no byte of the IBUF of a command in flight. -/
def HostAction.keepsDuty (s : State) : HostAction → Prop
  | .present form input place =>
    s.busy = false ∧ ∃ w bytes, form.cmdWord = some w ∧ input.bytes s = some bytes ∧
      s.config.allows bytes.length = true ∧
      s.config.allows (outputLength ⟨w, bytes.length, Memory.ofBytes bytes⟩) = true ∧
      place.overlaps bytes.length (outputLength ⟨w, bytes.length, Memory.ofBytes bytes⟩) = false
  | .read .busy => True
  | .read .status => s.response.isSome = true
  | .read .errinfo => s.response.isSome = true
  | .read .length => s.response.isSome = true
  | .read (.output j) => s.busy = false ∧ ∃ r, s.response = some r ∧ j < r.len
  | .read (.abandoned _) => False
  | .changeInput i b => ∀ c, s.busy = true → s.command = some c → i < c.n → Memory.read c.ibuf i = some b
  | .reset => True

/-- A turn of HOST keeps HOST's duties; CORE has none of them. -/
def Turn.keepsDuty (s : State) : Turn → Prop
  | .host a => a.keepsDuty s
  | .core _ => True

/-- From `s` on, HOST keeps its duties in every state in which one of these turns is taken. -/
def Dutiful : List Turn → State → Prop
  | [], _ => True
  | t :: ts, s => t.keepsDuty s ∧ ∀ s', takeTurn t (s.dropTurn ts) = .next s' → Dutiful ts s'

end Sys2Proof.Machine
end

