-- ==== Sys2Proof/Certificates/Slice0/Obligations.lean ====
section
/-! DEFINITION. The statements for the provers. Each docstring names the rule of spec/ it formalises, and the log
entry wherever a clause is the model's own choice. -/

open Sys2Proof Sys2Proof.Machine

/-! ### Reset and the state of an idle block -/

/-- R37. After reset BUSY = 0, no command and no response are held and the constant tables have their contents;
a field outside its lifetime reads as nothing. How the model reads nothing: HOST's read of the response stops (log 11),
and a meaning with no command faults (log 26; 93_implementation_defined.md row 17). -/
def Obligations.ResetHoldsNothing : Prop :=
  State.reset.busy = false ∧ State.reset.command = none ∧ State.reset.response = none ∧
  (∀ x, brlutAt x = rev8 x) ∧
  (∀ n : Width, fieldTable n =
    ⟨8 / n.nbits, 2 ^ n.nbits - 1,
      (List.range (8 / n.nbits)).map (fun j => (2 ^ n.nbits - 1) <<< (8 - n.nbits * (j + 1))),
      (List.range (8 / n.nbits)).map (fun j => 8 - n.nbits * (j + 1))⟩) ∧
  (∀ s : State, s.response = none → ∀ j, ∀ what ∈ [HostRead.status, .errinfo, .length, .output j],
    ∃ f, hostRead what s = .error f) ∧
  (∀ s : State, s.command = none → ∀ i, exec i s = .fault .noCommandHeld)

/-- R200. Reset at any time: BUSY is cleared, the command in flight is abandoned and no response is delivered for
it. That the parameters, HOST's script, what HOST has read and the rest of the model's own fields stay is log 9. -/
def Obligations.ResetAbandonsTheCommand : Prop :=
  ∀ (s : State) (rest : List Turn), s.turns = .host .reset :: rest →
    ∃ t, step s = .next t ∧ t.busy = false ∧ t.command = none ∧ t.progress = Progress.empty ∧
      t.response = none ∧ t.config = s.config ∧ t.turns = rest ∧ t.hostSaw = s.hostSaw ∧
      (s.busy = false → t.draws = s.draws ∧ t.abandoned = none)

/-- R202. Every byte of the OBUF of a command abandoned by reset is any value: a free byte of its own. That the
bytes are numbered from the counter `draws` on, as many as the response would have had, is log 8. -/
def Obligations.AbandonedOutputIsFree : Prop :=
  ∀ (s : State) (c : Command) (rest : List Turn), s.turns = .host .reset :: rest → s.busy = true →
    s.command = some c →
    ∃ t m, step s = .next t ∧ t.response = none ∧ t.abandoned = some m ∧
      Holds m (outputLength c) (fun j => Config.freeByte (s.draws + j)) ∧
      t.draws = s.draws + outputLength c

/-! ### Commands and responses -/

/-- R23. While BUSY = 0 a command is accepted, however it is written and wherever its input comes from, which sets
BUSY (the buffers and lengths meet HOST's duties, R206, R210); while BUSY = 1 none is; delivering the response clears
BUSY; BUSY resets to 0. That acceptance ends an earlier response and an abandoned OBUF is the model's, logs 6 and 8;
so is the exact output length in HOST's duties, logs 15 and 16. -/
def Obligations.BusyProtocol : Prop :=
  (∀ (s : State) (form : CommandForm) (input : Input) (place : Placement) (w : CmdWord) (bytes : List Byte)
      (rest : List Turn),
    s.turns = .host (.present form input place) :: rest → s.busy = false →
    form.cmdWord = some w → input.bytes s = some bytes → s.config.allows bytes.length = true →
    s.config.allows (outputLength ⟨w, bytes.length, Memory.ofBytes bytes⟩) = true →
    place.overlaps bytes.length (outputLength ⟨w, bytes.length, Memory.ofBytes bytes⟩) = false →
    step s = .next { s with
      busy := true
      command := some ⟨w, bytes.length, Memory.ofBytes bytes⟩
      progress := Progress.empty
      response := none
      abandoned := none
      turns := rest }) ∧
  (∀ (s : State) (form : CommandForm) (input : Input) (place : Placement) (rest : List Turn),
    s.turns = .host (.present form input place) :: rest → s.busy = true →
    step s = .refused .commandWhileBusy) ∧
  (∀ s t : State, runCommand s = .next t → t.busy = false ∧ ∃ r, t.response = some r) ∧
  State.reset.busy = false

/-- R189. Violations of a HOST duty have no architected result, however the command is written and wherever its input
comes from: IBUF changed while busy, overlapping buffers and lengths above MAX_LEN are refused, and an early read of
OBUF is stuck. A written width above 255 is refused too (93_implementation_defined.md row 12; log 19). The model's
own: the exact output length (logs 15, 16), and that the width is refused before a missing input (log 24). -/
def Obligations.HostDutyViolationsStop : Prop :=
  (∀ (s : State) (c : Command) (i : Nat) (b : Byte) (rest : List Turn),
    s.turns = .host (.changeInput i b) :: rest → s.busy = true → s.command = some c → i < c.n →
    Memory.read c.ibuf i ≠ some b → step s = .refused .inputChangedWhileBusy) ∧
  (∀ (s : State) (j : Nat) (rest : List Turn), s.turns = .host (.read (.output j)) :: rest → s.busy = true →
    step s = .fault .outputBeforeResponse) ∧
  (∀ (s : State) (form : CommandForm) (input : Input) (w : CmdWord) (bytes : List Byte) (ibufAt obufAt a : Nat)
      (rest : List Turn),
    s.turns = .host (.present form input (.shared ibufAt obufAt)) :: rest → s.busy = false →
    form.cmdWord = some w → input.bytes s = some bytes →
    s.config.allows bytes.length = true →
    s.config.allows (outputLength ⟨w, bytes.length, Memory.ofBytes bytes⟩) = true →
    ibufAt ≤ a → a < ibufAt + bytes.length → obufAt ≤ a →
    a < obufAt + outputLength ⟨w, bytes.length, Memory.ofBytes bytes⟩ →
    step s = .refused .buffersOverlap) ∧
  (∀ (s : State) (form : CommandForm) (input : Input) (w : CmdWord) (bytes : List Byte) (place : Placement)
      (rest : List Turn),
    s.turns = .host (.present form input place) :: rest → s.busy = false →
    form.cmdWord = some w → input.bytes s = some bytes →
    (s.config.allows bytes.length = false ∨
      s.config.allows (outputLength ⟨w, bytes.length, Memory.ofBytes bytes⟩) = false) →
    ∃ len, s.config.allows len = false ∧ step s = .refused (.lengthAboveMax len)) ∧
  (∀ (s : State) (n : Nat) (t : Source) (input : Input) (place : Placement) (rest : List Turn),
    s.turns = .host (.present (.written t) input place) :: rest → s.busy = false → 255 < n →
    (t = .packCall n ∨ t = .unpackCall n ∨ t = .unpack n ∨ ∃ pol, t = .pack n pol) →
    step s = .refused .widthBeyondField)

/-- R209. A command with no input of its own takes the previous response's OBUF as its IBUF, and nothing else of
it. That asking for it where no response is held is refused is log 18. -/
def Obligations.PreviousOutputIsTheNextInput : Prop :=
  (∀ (s : State) (w : CmdWord) (r : Response) (rest : List Turn),
    s.turns = .host (.present (.word w) .previous .separate) :: rest → s.busy = false →
    s.response = some r → r.wf = true → s.config.allows r.len = true →
    s.config.allows (outputLength ⟨w, r.len, r.obuf⟩) = true →
    ∃ t, step s = .next t ∧ t.busy = true ∧ t.command = some ⟨w, r.len, r.obuf⟩) ∧
  (∀ (s : State) (w : CmdWord) (place : Placement) (rest : List Turn),
    s.turns = .host (.present (.word w) .previous place) :: rest → s.busy = false → s.response = none →
    step s = .refused .noPreviousOutput)

/-- What HOST reads (R26, R33, R50): of a delivered response STATUS, ERRINFO, L and each OBUF byte below L, and no OBUF
index at or above L (log 11); a STATUS above 4 stops the model (93_implementation_defined.md row 16; log 21). BUSY is
always readable (log 12). Of an abandoned OBUF its bytes and no others (log 8). A step on a reading turn stops where
the read does; otherwise HOST has seen the value (log 10) and nothing else has changed. -/
def Obligations.HostReadsTheResponse : Prop :=
  (∀ (s : State) (what : HostRead) (rest : List Turn), s.turns = .host (.read what) :: rest →
    (∀ v, hostRead what s = .ok v → step s = .next { s with turns := rest, hostSaw := some v }) ∧
    (∀ f, hostRead what s = .error f → step s = .fault f)) ∧
  (∀ (s : State) (r : Response), s.response = some r → s.busy = false → r.wf = true →
    hostRead .status s = .ok r.status.toNat ∧ hostRead .errinfo s = .ok r.errinfo ∧
    hostRead .length s = .ok r.len ∧
    (∀ j, j < r.len → ∃ b, Memory.read r.obuf j = some b ∧ hostRead (.output j) s = .ok b.toNat) ∧
    (∀ j, r.len ≤ j → hostRead (.output j) s = .error (.noOutputByte j))) ∧
  (∀ (s : State) (r : Response), s.response = some r → 4 < r.status.toNat →
    hostRead .status s = .error (.illegalStatus r.status.toNat)) ∧
  (∀ s : State, hostRead .busy s = .ok s.busy.toNat) ∧
  (∀ (s : State) (m : Memory), s.abandoned = some m → Memory.full m m.length = true →
    (∀ j, j < m.length → ∃ b, Memory.read m j = some b ∧ hostRead (.abandoned j) s = .ok b.toNat) ∧
    (∀ j, m.length ≤ j → hostRead (.abandoned j) s = .error (.noAbandonedByte j))) ∧
  (∀ (s : State) (j : Nat), s.abandoned = none → hostRead (.abandoned j) s = .error (.noAbandonedByte j))

/-! ### Encoding -/

/-- A step performs the decoded command: the next turn is CORE's response, or no turn is listed (R61, log 5). A word
that is no legal command ends in its error (R80). -/
def Obligations.StepRunsTheDecodedCommand : Prop :=
  ∀ (s : State) (c : Command), s.busy = true → s.command = some c →
    (∀ i, decode c.cmd = .instr i →
      (s.turns = [] → step s = exec i s) ∧
      (∀ rest, s.turns = .core .respond :: rest → step s = exec i { s with turns := rest })) ∧
    (∀ e, (decode c.cmd = .invalidCommand c.cmd ∧ e = CoreError.invalidCommand c.cmd) ∨
        (∃ nb, decode c.cmd = .invalidBitWidth nb ∧ e = CoreError.invalidBitWidth nb) →
      s.turns = [] → step s = .next (s.answered ⟨e.code, e.info, 0, []⟩ 0))

/-- A placed command word is accepted, and the very next step performs it (log 17). -/
def Obligations.FetchedWordIsPerformedNext : Prop :=
  ∀ (s : State) (w : Nat) (i : Instr), decode (BitVec.ofNat 16 w) = .instr i →
    step (s.withFetchWord 16 w) = exec i { s with
      busy := true
      command := some (commandFor s (BitVec.ofNat 16 w))
      progress := Progress.empty
      response := none
      abandoned := none }

/-- R79, R70. Decoding an encoded well-formed instruction gives it back, with every value of its ignored fields. -/
def Obligations.DecodeOfEncode : Prop :=
  ∀ i : Instr, i.wf = true → decode (encode i) = .instr i

/-- R79, R82. A legal command word is the encoding of the one well-formed instruction it decodes to. -/
def Obligations.EncodeOfDecode : Prop :=
  ∀ (w : CmdWord) (i : Instr), decode w = .instr i → i.wf = true ∧ encode i = w

/-- R79. The opcode map: a word decodes to an instruction of a row exactly when it matches the row; no two rows
match the same word; a word that matches no row is no legal command. -/
def Obligations.DecodeFollowsTheOpcodeMap : Prop :=
  ∀ w : CmdWord,
    (∀ r ∈ opcodeMap, r.covers w = true ↔ ∃ i, decode w = .instr i ∧ i.row = r) ∧
    (∀ r ∈ opcodeMap, ∀ r' ∈ opcodeMap, r.covers w = true → r'.covers w = true → r = r') ∧
    ((∀ r ∈ opcodeMap, r.covers w = false) → ∀ i, decode w ≠ .instr i)

/-- R80. A word that matches no row of the opcode map falls in exactly one of four classes: a reserved operation (16384
words), reserved bits or a reserved policy is answered InvalidCommand with the word, an illegal width InvalidBitWidth
with NBITS. -/
def Obligations.ReservedWordsAreAnswered : Prop :=
  let reservedOperation : CmdWord → Prop := fun w => cmdOp w = 3
  let reservedBits : CmdWord → Prop := fun w => cmdOp w ≠ 3 ∧ cmdRsv w ≠ 0
  let reservedPolicy : CmdWord → Prop := fun w => cmdOp w = 1 ∧ cmdRsv w = 0 ∧ cmdPolicy w = 3
  let illegalWidth : CmdWord → Prop := fun w =>
    (cmdOp w = 1 ∧ cmdPolicy w ≠ 3 ∨ cmdOp w = 2) ∧ cmdRsv w = 0 ∧
      cmdNbits w ≠ 1 ∧ cmdNbits w ≠ 2 ∧ cmdNbits w ≠ 4
  (∀ w : CmdWord, (∀ r ∈ opcodeMap, r.covers w = false) ↔
    reservedOperation w ∨ reservedBits w ∨ reservedPolicy w ∨ illegalWidth w) ∧
  (∀ w : CmdWord, ¬ (reservedOperation w ∧ (reservedBits w ∨ reservedPolicy w ∨ illegalWidth w)) ∧
    ¬ (reservedBits w ∧ (reservedPolicy w ∨ illegalWidth w)) ∧ ¬ (reservedPolicy w ∧ illegalWidth w)) ∧
  (∀ w : CmdWord, reservedOperation w ↔ ∃ k, k < 16384 ∧ w = BitVec.ofNat 16 (4 * k + 3)) ∧
  (∀ (s : State) (c : Command), s.command = some c →
    reservedOperation c.cmd ∨ reservedBits c.cmd ∨ reservedPolicy c.cmd →
    runCommand s = .next (s.answered ⟨4, c.cmd.toNat, 0, []⟩ 0)) ∧
  (∀ (s : State) (c : Command), s.command = some c → illegalWidth c.cmd →
    runCommand s = .next (s.answered ⟨1, bits c.cmd.toNat 15 8, 0, []⟩ 0))

/-- R76. A field that an operation ignores may hold anything: POLICY and NBITS of a `bitrev` word and POLICY of an
`unpack` word change nothing in the outcome, and cause no error. RSV is never ignored. -/
def Obligations.IgnoredFieldsChangeNothing : Prop :=
  (∀ (s : State) (c : Command) (p n p' n' : Nat), p < 4 → n < 256 → p' < 4 → n' < 256 →
    (∃ i, decode (word n p 0) = .instr i) ∧
    runCommand { s with command := some { c with cmd := word n p 0 } } =
      runCommand { s with command := some { c with cmd := word n' p' 0 } }) ∧
  (∀ (s : State) (c : Command) (w : Width) (p p' : Nat), p < 4 → p' < 4 →
    (∃ i, decode (word w.nbits p 2) = .instr i) ∧
    runCommand { s with command := some { c with cmd := word w.nbits p 2 } } =
      runCommand { s with command := some { c with cmd := word w.nbits p' 2 } }) ∧
  (∀ w : CmdWord, cmdRsv w ≠ 0 → decode w = .invalidCommand w)

/-- Words written out from R79 and 95_test_vectors.md decode to the commands they stand for, and reserved words to
their errors. -/
def Obligations.SampleWordsDecode : Prop :=
  decode 0x0000 = .instr (.bitrev 0 0) ∧ decode 0xFF08 = .instr (.bitrev 2 255) ∧
  decode 0x0101 = .instr .pack1Trust ∧ decode 0x0205 = .instr .pack2Mask ∧
  decode 0x0409 = .instr .pack4Strict ∧ decode 0x0102 = .instr (.unpack1 0) ∧
  decode 0x020E = .instr (.unpack2 3) ∧ decode 0x040A = .instr (.unpack4 2) ∧
  decode 0x0313 = .invalidCommand 0x0313 ∧ decode 0x030D = .invalidCommand 0x030D ∧
  decode 0x0301 = .invalidBitWidth 3 ∧ decode 0x1002 = .invalidBitWidth 16

/-- R83, R85. A mnemonic that assembles disassembles to itself, and only a width above 255 does not assemble. -/
def Obligations.DisassembleOfAssemble : Prop :=
  (∀ (m : Mnemonic) (w : CmdWord), m.assemble = some w → disassemble w = .mnemonic m) ∧
  (∀ m : Mnemonic, m.assemble = none ↔ ∃ n, 255 < n ∧ (m = .unpack n ∨ ∃ pol, m = .pack n pol))

/-- R84. The pseudo-instructions and their encodings, for every width the NBITS field holds. -/
def Obligations.CallFormsEncode : Prop :=
  CommandForm.cmdWord (.written .bitReverseCall) = some 0x0000 ∧
  ∀ n, n ≤ 255 →
    CommandForm.cmdWord (.written (.pack n none)) = some (BitVec.ofNat 16 ((n <<< 8) + 0x01)) ∧
    CommandForm.cmdWord (.written (.packCall n)) = some (BitVec.ofNat 16 ((n <<< 8) + 0x01)) ∧
    CommandForm.cmdWord (.written (.unpackCall n)) = some (BitVec.ofNat 16 ((n <<< 8) + 0x02)) ∧
    (∀ p, (Source.pack n none).expand = .pack n p ↔ p = .trust)

/-! ### bit_reversal_lut -/

/-- R100. Bit `j` of the reversed byte is bit `7 - j` of the byte, and the byte is the sum the rule gives. -/
def Obligations.Rev8ReversesTheBits : Prop :=
  ∀ x : Byte, (∀ j, j < 8 → (rev8 x).getLsbD j = x.getLsbD (7 - j)) ∧
    (rev8 x).toNat = ((List.range 8).map fun j => ((x.toNat >>> (7 - j)) &&& 1) <<< j).sum

/-- R102, R103. The table's entries are `rev8`, and so is the formula, over naturals and in any width of at least 41
bits, for every byte; so the two builds of BITREV_IMPL give the same byte. -/
def Obligations.TableAndFormulaAgree : Prop :=
  (2 ^ 33 ≤ 0x0202020202 ∧ 0x0202020202 < 2 ^ 34 ∧ 2 ^ 40 ≤ 0x010884422010 ∧ 0x010884422010 < 2 ^ 41) ∧
  ∀ x : Byte, brlutAt x = rev8 x ∧
    ((x.toNat * 0x0202020202) &&& 0x010884422010) % 1023 = (rev8 x).toNat ∧
    (∀ width, 41 ≤ width → revFormula width x = (rev8 x).toNat) ∧
    ∀ cfg cfg' : Config, reverseByte cfg x = reverseByte cfg' x

/-- R104. The formula keeps at least 41 bits: bit 40 of the product carries input bit 7 into output bit 0. With 40 bits
it loses output bit 0 for every `x >= 128`; at 36 to 40 bits exactly the inputs 128 to 255 fail; at 32 to 35 bits 192
inputs fail. -/
def Obligations.FormulaNeedsFortyOneBits : Prop :=
  41 ≤ wideBits ∧ 255 * 0x0202020202 = 0x1FFFFFFFFFE ∧ 2 ^ 40 ≤ 0x1FFFFFFFFFE ∧ 0x1FFFFFFFFFE < 2 ^ 41 ∧
  Nat.testBit 0x010884422010 40 = true ∧
  (∀ x : Byte, (x.toNat * 0x0202020202).testBit 40 = x.getLsbD 7 ∧ (rev8 x).getLsbD 0 = x.getLsbD 7) ∧
  (∀ x : Byte, 128 ≤ x.toNat → revFormula 40 x + 1 = (rev8 x).toNat ∧ (rev8 x).getLsbD 0 = true) ∧
  (∀ width, 36 ≤ width → width ≤ 40 → ∀ x : Byte, revFormula width x ≠ (rev8 x).toNat ↔ 128 ≤ x.toNat) ∧
  (∀ width, 32 ≤ width → width ≤ 35 →
    ((List.range 256).filter fun v => revFormula width (BitVec.ofNat 8 v) ≠ (rev8 (BitVec.ofNat 8 v)).toNat).length
      = 192)

/-- R101. `bitrev` answers OK with the reversal of every input byte, `L = N`, and changes nothing else. -/
def Obligations.BitrevReversesEveryByte : Prop :=
  ∀ (s : State) (c : Command) (p n : Nat), s.Performing (.bitrev p n) c →
    ∃ obuf, exec (.bitrev p n) s = .next (s.answered ⟨0, 0, c.n, obuf⟩ 0) ∧
      Holds obuf c.n (fun j => rev8 (BitVec.ofNat 8 (c.byteAt j)))

/-- R105. `rev8` is its own inverse, so `bitrev` performed twice gives the original buffer; the values the source
lists. -/
def Obligations.BitrevTwiceRestoresTheInput : Prop :=
  (∀ x : Byte, rev8 (rev8 x) = x) ∧ rev8 0 = 0 ∧ rev8 255 = 255 ∧ rev8 0b10000000 = 0b00000001 ∧
  ∀ (s s' t t' : State) (c c' : Command) (p n p' n' : Nat) (r r' : Response),
    s.Performing (.bitrev p n) c → exec (.bitrev p n) s = .next t → t.response = some r →
    s'.Performing (.bitrev p' n') c' → c'.n = r.len → c'.ibuf = r.obuf →
    exec (.bitrev p' n') s' = .next t' → t'.response = some r' →
    r'.len = c.n ∧ r'.obuf = c.ibuf

/-! ### pack_bit_field_encoder -/

/-- R127, with R121 to R124. `pack.1` under each policy: OK with `L = N / 8` and the eight samples of each group
MSB-first; TRUST keeps the samples as they are, cut to 8 bits, or draws a free byte for a group with an out-of-range
sample where OOR_TRUST_RESULT = ANY (log 7). -/
def Obligations.Pack1PacksEightSamples : Prop :=
  ∀ (s : State) (c : Command) (pol : Policy), s.Performing (packInstr .one pol) c → c.n % 8 = 0 →
    (pol = .strict → ∀ i, i < c.n → c.byteAt i ≤ 1) →
    let x : Nat → Nat := fun i => if pol = .mask then c.byteAt i &&& 0x01 else c.byteAt i
    ∃ obuf, exec (packInstr .one pol) s = .next (s.answered ⟨0, 0, c.n / 8, obuf⟩
        (if pol = .trust ∧ s.config.oorTrust = .any then c.n / 8 else 0)) ∧
      Holds obuf (c.n / 8) (fun g =>
        if pol = .trust ∧ s.config.oorTrust = .any ∧ ∃ j, j < 8 ∧ 1 < c.byteAt (8 * g + j) then
          Config.freeByte (s.draws + g)
        else BitVec.ofNat 8
          (x (8 * g) <<< 7 ||| x (8 * g + 1) <<< 6 ||| x (8 * g + 2) <<< 5 ||| x (8 * g + 3) <<< 4
            ||| x (8 * g + 4) <<< 3 ||| x (8 * g + 5) <<< 2 ||| x (8 * g + 6) <<< 1 ||| x (8 * g + 7)))

/-- R128, with R121 to R124. `pack.2` under each policy: OK with `L = N / 4` and the four samples of each group
MSB-first; TRUST as for `pack.1`. -/
def Obligations.Pack2PacksFourSamples : Prop :=
  ∀ (s : State) (c : Command) (pol : Policy), s.Performing (packInstr .two pol) c → c.n % 4 = 0 →
    (pol = .strict → ∀ i, i < c.n → c.byteAt i ≤ 3) →
    let x : Nat → Nat := fun i => if pol = .mask then c.byteAt i &&& 0x03 else c.byteAt i
    ∃ obuf, exec (packInstr .two pol) s = .next (s.answered ⟨0, 0, c.n / 4, obuf⟩
        (if pol = .trust ∧ s.config.oorTrust = .any then c.n / 4 else 0)) ∧
      Holds obuf (c.n / 4) (fun g =>
        if pol = .trust ∧ s.config.oorTrust = .any ∧ ∃ j, j < 4 ∧ 3 < c.byteAt (4 * g + j) then
          Config.freeByte (s.draws + g)
        else BitVec.ofNat 8
          (x (4 * g) <<< 6 ||| x (4 * g + 1) <<< 4 ||| x (4 * g + 2) <<< 2 ||| x (4 * g + 3)))

/-- R129, with R121 to R124. `pack.4` under each policy: OK with `L = N / 2` and the two samples of each group
MSB-first; TRUST as for `pack.1`. -/
def Obligations.Pack4PacksTwoSamples : Prop :=
  ∀ (s : State) (c : Command) (pol : Policy), s.Performing (packInstr .four pol) c → c.n % 2 = 0 →
    (pol = .strict → ∀ i, i < c.n → c.byteAt i ≤ 15) →
    let x : Nat → Nat := fun i => if pol = .mask then c.byteAt i &&& 0x0F else c.byteAt i
    ∃ obuf, exec (packInstr .four pol) s = .next (s.answered ⟨0, 0, c.n / 2, obuf⟩
        (if pol = .trust ∧ s.config.oorTrust = .any then c.n / 2 else 0)) ∧
      Holds obuf (c.n / 2) (fun g =>
        if pol = .trust ∧ s.config.oorTrust = .any ∧ ∃ j, j < 2 ∧ 15 < c.byteAt (2 * g + j) then
          Config.freeByte (s.draws + g)
        else BitVec.ofNat 8 (x (2 * g) <<< 4 ||| x (2 * g + 1)))

/-- R55, R121. MSB-first: bit `b` of sample `j` of a group of in-range samples is bit `8 - n*(j+1) + b` of the packed
byte, for every width and policy. -/
def Obligations.PackedBitsAreTheSamplesBits : Prop :=
  ∀ (s t : State) (c : Command) (n : Width) (pol : Policy) (r : Response),
    s.Performing (packInstr n pol) c → c.n % (8 / n.nbits) = 0 → c.inRange n →
    exec (packInstr n pol) s = .next t → t.response = some r →
    ∀ g j b, g < r.len → j < 8 / n.nbits → b < n.nbits →
      ∃ v, Memory.read r.obuf g = some v ∧
        v.getLsbD (8 - n.nbits * (j + 1) + b) = (c.byteAt (g * (8 / n.nbits) + j)).testBit b

/-- R126. A length that is no multiple of K(n) is InvalidLength with `N`, for every width and policy and whatever IBUF
holds; no OBUF byte is written. -/
def Obligations.PackRefusesPartialGroups : Prop :=
  ∀ (s : State) (c : Command) (n : Width) (pol : Policy), s.command = some c → c.n % (8 / n.nbits) ≠ 0 →
    exec (packInstr n pol) s = .next (s.answered ⟨2, c.n, 0, []⟩ 0)

/-- R125. Under STRICT, after the length check, the first sample above FMASK(n) is reported with its index and no OBUF
byte is written; under TRUST and MASK no command ends in OutOfRangeSample. -/
def Obligations.StrictReportsTheFirstBadSample : Prop :=
  (∀ (s : State) (c : Command) (n : Width) (i : Nat), s.Performing (packInstr n .strict) c →
    c.n % (8 / n.nbits) = 0 → i < c.n → 2 ^ n.nbits - 1 < c.byteAt i →
    (∀ m, m < i → c.byteAt m ≤ 2 ^ n.nbits - 1) →
    exec (packInstr n .strict) s = .next (s.answered ⟨3, i, 0, []⟩ 0)) ∧
  (∀ (s : State) (c : Command) (n : Width), s.command = some c → c.n % (8 / n.nbits) ≠ 0 →
    exec (packInstr n .strict) s = .next (s.answered ⟨2, c.n, 0, []⟩ 0)) ∧
  (∀ (s t : State) (n : Width) (pol : Policy) (r : Response), pol ≠ .strict →
    exec (packInstr n pol) s = .next t → t.response = some r → r.status ≠ 3)

/-- R130. `pack` of an empty input with a legal width succeeds with an empty output under every policy; with an
illegal width it is InvalidBitWidth. -/
def Obligations.PackOfNothing : Prop :=
  (∀ (s : State) (c : Command) (n : Width) (pol : Policy), s.Performing (packInstr n pol) c → c.n = 0 →
    exec (packInstr n pol) s = .next (s.answered ⟨0, 0, 0, []⟩ 0)) ∧
  (∀ (s : State) (c : Command) (n p : Nat), s.command = some c → c.n = 0 → n < 256 → p < 3 →
    n ≠ 1 → n ≠ 2 → n ≠ 4 → c.cmd = word n p 1 →
    runCommand s = .next (s.answered ⟨1, n, 0, []⟩ 0))

/-- R131. On in-range samples the three policies give the same response, whatever OOR_TRUST_RESULT is; and on any
samples MASK gives what TRUST gives on the masked samples. -/
def Obligations.PoliciesAgreeInRange : Prop :=
  (∀ (s s' : State) (c : Command) (n : Width) (pol pol' : Policy), s.Performing (packInstr n pol) c →
    s'.Performing (packInstr n pol') c → c.inRange n →
    ∃ t t', exec (packInstr n pol) s = .next t ∧ exec (packInstr n pol') s' = .next t' ∧
      t.response = t'.response) ∧
  (∀ (s s' : State) (c c' : Command) (n : Width), s.Performing (packInstr n .mask) c →
    s'.Performing (packInstr n .trust) c' → c'.n = c.n →
    (∀ i, i < c.n → c'.byteAt i = c.byteAt i &&& (2 ^ n.nbits - 1)) →
    ∃ t t', exec (packInstr n .mask) s = .next t ∧ exec (packInstr n .trust) s' = .next t' ∧
      t.response = t'.response)

/-! ### unpack_bit_field_decoder -/

/-- R151, R152. `unpack.n` answers OK with `L = N * 8 / n`; OBUF byte `i*K(n) + j` is field `j` of input byte `i`,
both forms of R151 agreeing, with its bits above `n - 1` zero. Nothing else changes. -/
def Obligations.UnpackExtractsTheFields : Prop :=
  ∀ (s : State) (c : Command) (n : Width) (p : Nat), s.Performing (unpackInstr n p) c →
    ∃ obuf, exec (unpackInstr n p) s = .next (s.answered ⟨0, 0, c.n * (8 / n.nbits), obuf⟩ 0) ∧
      obuf.map Prod.fst = List.range (c.n * (8 / n.nbits)) ∧ c.n * (8 / n.nbits) = c.n * 8 / n.nbits ∧
      ∀ i j, i < c.n → j < 8 / n.nbits → ∃ v,
        Memory.read obuf (i * (8 / n.nbits) + j) = some v ∧ v.toNat ≤ 2 ^ n.nbits - 1 ∧
        v.toNat = (c.byteAt i >>> (8 - n.nbits * (j + 1))) &&& (2 ^ n.nbits - 1) ∧
        v.toNat = (c.byteAt i &&& ((2 ^ n.nbits - 1) <<< (8 - n.nbits * (j + 1)))) >>> (8 - n.nbits * (j + 1))

/-- R156. Unpacking what `pack` of in-range samples gave, with the same width, gives the samples back, under every
policy. -/
def Obligations.UnpackOfPack : Prop :=
  ∀ (s s' t t' : State) (c c' : Command) (n : Width) (pol : Policy) (p : Nat) (r r' : Response),
    s.Performing (packInstr n pol) c → c.n % (8 / n.nbits) = 0 → c.inRange n →
    exec (packInstr n pol) s = .next t → t.response = some r →
    s'.Performing (unpackInstr n p) c' → c'.n = r.len → c'.ibuf = r.obuf →
    exec (unpackInstr n p) s' = .next t' → t'.response = some r' →
    r'.status = 0 ∧ r'.len = c.n ∧ r'.obuf = c.ibuf

/-- R157. Packing what `unpack` of any bytes gave, with the same width, gives the bytes back, under every policy and
with no error. -/
def Obligations.PackOfUnpack : Prop :=
  ∀ (s s' t t' : State) (c c' : Command) (n : Width) (pol : Policy) (p : Nat) (r r' : Response),
    s.Performing (unpackInstr n p) c → exec (unpackInstr n p) s = .next t → t.response = some r →
    s'.Performing (packInstr n pol) c' → c'.n = r.len → c'.ibuf = r.obuf →
    exec (packInstr n pol) s' = .next t' → t'.response = some r' →
    r'.status = 0 ∧ r'.len = c.n ∧ r'.obuf = c.ibuf

/-- R158. On success `pack.n` gives `N * n / 8` bytes, `unpack.n` `N * 8 / n`: that is `L`, and OBUF holds exactly the
indices below it. -/
def Obligations.LengthLaws : Prop :=
  (∀ (s t : State) (c : Command) (n : Width) (pol : Policy) (r : Response), s.command = some c →
    exec (packInstr n pol) s = .next t → t.response = some r → r.status = 0 →
    r.len = c.n * n.nbits / 8 ∧ r.len * 8 = c.n * n.nbits ∧
    (s.Performing (packInstr n pol) c → r.obuf.map Prod.fst = List.range r.len)) ∧
  (∀ (s t : State) (c : Command) (n : Width) (p : Nat) (r : Response), s.command = some c →
    exec (unpackInstr n p) s = .next t → t.response = some r → r.status = 0 →
    r.len = c.n * 8 / n.nbits ∧ r.len * n.nbits = c.n * 8 ∧
    (s.Performing (unpackInstr n p) c → r.obuf.map Prod.fst = List.range r.len))

/-! ### Errors -/

/-- R170, R172, R173. Every command in flight is answered, and STATUS and ERRINFO are exactly these: InvalidCommand
with the word, InvalidBitWidth with NBITS, InvalidLength with `N`, OutOfRangeSample with the lowest index, each only
where its cause is there and no earlier one of R176 is; otherwise OK with 0. -/
def Obligations.EveryCommandHasItsStatus : Prop :=
  ∀ (s : State) (c : Command), s.Inv → s.busy = true → s.command = some c →
    ∃ t r, runCommand s = .next t ∧ t.response = some r ∧
      ((r.status = 4 ∧ r.errinfo = c.cmd.toNat ∧ badCommand c.cmd) ∨
       (r.status = 1 ∧ r.errinfo = cmdNbits c.cmd ∧ badWidth c.cmd) ∨
       (r.status = 2 ∧ r.errinfo = c.n ∧ badLength c.cmd c.n) ∨
       (r.status = 3 ∧ badSample c r.errinfo) ∨
       (r.status = 0 ∧ r.errinfo = 0 ∧ ¬ badCommand c.cmd ∧ ¬ badWidth c.cmd ∧ ¬ badLength c.cmd c.n ∧
        ∀ i, ¬ badSample c i))

/-- R180. A response that is not OK is `(code(E), info, 0, [])` for an error E, BUSY is clear, and nothing else of the
state has changed (R179). -/
def Obligations.ErrorResponsesAreEmpty : Prop :=
  ∀ (s t : State) (r : Response), runCommand s = .next t → t.response = some r → r.status ≠ 0 →
    (∃ e : CoreError, r = ⟨e.code, e.info, 0, []⟩) ∧ t.busy = false ∧ t = s.answered r 0

/-- R175. `bitrev` and `unpack` never end in an error of their own; `pack` under TRUST and MASK only in
InvalidLength; under STRICT also in OutOfRangeSample. -/
def Obligations.OnlyTheseErrors : Prop :=
  ∀ (s t : State) (r : Response),
    (∀ p n, exec (.bitrev p n) s = .next t → t.response = some r → r.status = 0) ∧
    (∀ n p, exec (unpackInstr n p) s = .next t → t.response = some r → r.status = 0) ∧
    (∀ n pol, pol ≠ .strict → exec (packInstr n pol) s = .next t → t.response = some r →
      r.status = 0 ∨ r.status = 2) ∧
    (∀ n, exec (packInstr n .strict) s = .next t → t.response = some r →
      r.status = 0 ∨ r.status = 2 ∨ r.status = 3)

/-- R181, R21. Nothing of an earlier command, its response, its error or its being abandoned reaches the next one: from
two idle blocks with the same parameters the same command gets the same answer. The one exception is a draw (R124):
TRUST pack of out-of-range samples with OOR_TRUST_RESULT = ANY. That a draw is numbered by the counter `draws`, so
that equal counters draw equal bytes and both counters move on alike, is the model's choice, log 7. -/
def Obligations.NothingCarriesOver : Prop :=
  ∀ (s s' t : State) (form : CommandForm) (bytes : List Byte) (place : Placement) (rest rest' : List Turn),
    s.busy = false → s'.busy = false → s.config = s'.config →
    (s.config.oorTrust = .formula8 ∨ s.draws = s'.draws ∨
      ∀ w n, form.cmdWord = some w → decode w = .instr (packInstr n .trust) →
        (⟨w, bytes.length, Memory.ofBytes bytes⟩ : Command).inRange n) →
    s.turns = .host (.present form (.buffer bytes) place) :: .core .respond :: rest →
    s'.turns = .host (.present form (.buffer bytes) place) :: .core .respond :: rest' →
    Sys2Proof.core.run 2 s = .next t →
    ∃ t', Sys2Proof.core.run 2 s' = .next t' ∧ t'.busy = t.busy ∧ t'.response = t.response ∧
      t'.draws + s.draws = t.draws + s'.draws

/-! ### Order, parallelism and hidden progress -/

/-- R25, with R36, R58, R186. The response is a function of the command, whatever its word: it does not depend on
LANES, on BITREV_IMPL, on how much of the work CORE has already done and in which order, or on anything else of the
state. The one exception is a draw: TRUST pack of out-of-range samples with OOR_TRUST_RESULT = ANY (R124). That two
states with the same counter `draws` draw the same bytes is the model's choice, log 7. -/
def Obligations.ResponseIsAFunctionOfTheCommand : Prop :=
  ∀ (s s' : State) (c : Command), s.command = some c → s'.command = some c →
    (∀ i, decode c.cmd = .instr i → s.Performing i c ∧ s'.Performing i c) →
    s.config.oorTrust = s'.config.oorTrust →
    (s.config.oorTrust = .formula8 ∨ s.draws = s'.draws ∨
      ∀ n, decode c.cmd = .instr (packInstr n .trust) → c.inRange n) →
    ∃ t t', runCommand s = .next t ∧ runCommand s' = .next t' ∧ t.response = t'.response

/-- R53. No legal command reads an IBUF index at or above `N` or writes an OBUF index at or above `L`: wherever CORE is
in its work, the instruction completes with a response, and its OBUF holds exactly the indices below `L`. -/
def Obligations.EveryInstructionCompletes : Prop :=
  ∀ (s : State) (c : Command) (i : Instr), s.Performing i c →
    ∃ r drawn, exec i s = .next (s.answered r drawn) ∧ r.obuf.map Prod.fst = List.range r.len

/-- R60. Every OBUF index below `L` is written by exactly one work unit, exactly once, in whatever order the lanes
take the units; an operation that raises an error writes no OBUF byte. -/
def Obligations.EachOutputByteIsWrittenOnce : Prop :=
  (∀ (c : Command) (i : Instr) (cfg : Config) (draws lanes : Nat), c.wf = true →
    ∃ cells : Nat → List Host.Cell,
      (∀ u, u < (operationOf i).units c.n → (operationOf i).unit cfg draws c u = .ok (cells u)) ∧
      List.Perm (((workOrder lanes ((operationOf i).units c.n)).flatMap cells).map Prod.fst)
        (List.range ((operationOf i).length c.n))) ∧
  (∀ (s t : State) (i : Instr) (r : Response), exec i s = .next t → t.response = some r → r.status ≠ 0 →
    r.obuf = [])

/-- R59. Which input bytes an output byte depends on: `bitrev` byte `j` on input byte `j`, `pack.n` byte `j` on the
K(n) samples of group `j`, `unpack.n` byte `j` on input byte `j / K(n)`. That under
OOR_TRUST_RESULT = ANY a draw at the same counter `draws` is the same byte is the model's choice, log 7. -/
def Obligations.OutputBytesDependOnTheirSlice : Prop :=
  ∀ (s s' t t' : State) (c c' : Command) (i : Instr) (r r' : Response) (j : Nat),
    s.Performing i c → s'.Performing i c' → c'.n = c.n → s.config.oorTrust = s'.config.oorTrust →
    (s.config.oorTrust = .formula8 ∨ s.draws = s'.draws ∨ ∀ n, i = packInstr n .trust → c.inRange n) →
    exec i s = .next t → exec i s' = .next t' → t.response = some r → t'.response = some r' →
    r.status = 0 → r'.status = 0 →
    ((∃ p n, i = .bitrev p n ∧ c.byteAt j = c'.byteAt j) ∨
     (∃ n pol, i = packInstr n pol ∧ ∀ k, k < 8 / n.nbits →
       c.byteAt (j * (8 / n.nbits) + k) = c'.byteAt (j * (8 / n.nbits) + k)) ∨
     (∃ n p, i = unpackInstr n p ∧ c.byteAt (j / (8 / n.nbits)) = c'.byteAt (j / (8 / n.nbits)))) →
    Memory.read r.obuf j = Memory.read r'.obuf j

/-- R186 (log 3). The lanes' order takes every work unit exactly once, whatever LANES is. -/
def Obligations.LanesTakeEveryUnitOnce : Prop :=
  ∀ lanes units : Nat, List.Perm (workOrder lanes units) (List.range units)

/-- R36. CORE's hidden work shows nowhere: a scan or a work unit ahead of the response changes CORE's progress and
nothing that HOST can read. -/
def Obligations.HiddenWorkIsInvisible : Prop :=
  ∀ (s t : State) (ct : CoreTurn), ct ≠ .respond → coreTurn ct s = .next t →
    t = { s with progress := t.progress } ∧ ∀ what, hostRead what t = hostRead what s

/-! ### Frames and invariants -/

/-- What performing an instruction leaves alone: the parameters, HOST's script, what HOST has read and the abandoned
buffer; the free-byte counter moves only where TRUST pack draws (log 7). The command and CORE's progress end, and a
response stands. -/
def Obligations.InstructionFrame : Prop :=
  ∀ (s t : State) (i : Instr), exec i s = .next t →
    t.config = s.config ∧ t.turns = s.turns ∧ t.hostSaw = s.hostSaw ∧ t.abandoned = s.abandoned ∧
    t.busy = false ∧ t.command = none ∧ t.progress = Progress.empty ∧ (∃ r, t.response = some r) ∧
    ((∀ n, i ≠ packInstr n .trust) ∨ s.config.oorTrust = .formula8 → t.draws = s.draws)

/-- R51. CORE never writes IBUF: while a command stays in flight, no step of either agent changes its word, its length
or any byte of its input; and reading IBUF gives the byte HOST supplied. -/
def Obligations.InputIsNeverWritten : Prop :=
  (∀ s t : State, step s = .next t → s.busy = true → t.busy = true → t.command = s.command) ∧
  ∀ (w : CmdWord) (bytes : List Byte) (i : Nat) (b : Byte), bytes[i]? = some b →
    memRead ⟨w, bytes.length, Memory.ofBytes bytes⟩ i = .ok b

/-- R7. No step changes a parameter of the block. -/
def Obligations.ParametersNeverChange : Prop :=
  ∀ s t : State, step s = .next t → t.config = s.config

/-- The invariant holds right after reset. -/
def Obligations.ResetIsLegal : Prop := State.reset.Inv

/-- Every step keeps the invariant: BUSY says whether a command is held (R23, R27), the command in flight is whole and
within MAX_LEN (R22, R210), CORE's progress is part of its work (R36), a response is as R26 and R170 have it, its
OBUF in canonical form, and nothing is in progress in an idle block (R21). -/
def Obligations.StepKeepsTheInvariant : Prop :=
  ∀ s t : State, s.Inv → step s = .next t → t.Inv

/-- R204 to R207, R209, R210. A HOST that keeps its duties never makes the block stop, whatever CORE's turns are: every
step of a legal state has a next state, which is legal; the script goes on with the next turn, and the duties go on
being kept. -/
def Obligations.DutifulHostNeverStops : Prop :=
  ∀ s : State, s.Inv → Dutiful s.turns s →
    ∃ t, step s = .next t ∧ t.Inv ∧ t.turns = s.turns.tail ∧ Dutiful t.turns t

/-- R212. Every accepted command that is not cut short by reset is answered after finitely many steps. That CORE answers
once the listed turns are used up is log 5. -/
def Obligations.AcceptedCommandIsAnswered : Prop :=
  ∀ s : State, s.Inv → s.busy = true → Dutiful s.turns s → .host .reset ∉ s.turns →
    ∃ k t r, k ≤ s.turns.length + 1 ∧ Sys2Proof.core.run k s = .next t ∧ t.busy = false ∧
      t.response = some r
end

