-- ==== Sys2Proof/Laws/Encoding.lean ====
section
/-! SUPPORT. The fields of a command word (30_encoding.md R70) and everything decoding can answer (R75, R80). -/

namespace Sys2Proof.Machine

/-! ### Fields -/

/-- The fields of a word put together from fields. -/
theorem word_fields {n p o : Nat} (hn : n < 256) (hp : p < 4) (ho : o < 4) :
    cmdOp (word n p o) = o ∧ cmdPolicy (word n p o) = p ∧ cmdRsv (word n p o) = 0 ∧
      cmdNbits (word n p o) = n := by
  have h : (word n p o).toNat = n * 256 + p * 4 + o := by
    unfold word; rw [BitVec.toNat_ofNat, Nat.mod_eq_of_lt]; omega
  simp only [cmdOp, cmdPolicy, cmdRsv, cmdNbits, bits, h]
  refine ⟨?_, ?_, ?_, ?_⟩ <;> norm_num <;> omega

/-- A word is its fields, and each field has its width. -/
theorem fields_eq (w : CmdWord) :
    w.toNat = cmdNbits w * 256 + cmdRsv w * 16 + cmdPolicy w * 4 + cmdOp w ∧
      cmdNbits w < 256 ∧ cmdRsv w < 16 ∧ cmdPolicy w < 4 ∧ cmdOp w < 4 := by
  have := w.isLt
  simp only [cmdOp, cmdPolicy, cmdRsv, cmdNbits, bits]
  norm_num
  omega

/-- A word with no reserved bit set is put together from its own fields. -/
theorem word_eq {w : CmdWord} (h : cmdRsv w = 0) : word (cmdNbits w) (cmdPolicy w) (cmdOp w) = w := by
  have ⟨h1, h2, h3, h4, h5⟩ := fields_eq w
  apply BitVec.eq_of_toNat_eq
  unfold word; rw [BitVec.toNat_ofNat, Nat.mod_eq_of_lt] <;> omega

/-! ### Decoding -/

theorem cmdOp_lt (w : CmdWord) : cmdOp w < 4 := (fields_eq w).2.2.2.2

theorem cmdPolicy_lt (w : CmdWord) : cmdPolicy w < 4 := (fields_eq w).2.2.2.1

/-- A width that is not legal (R74). -/
theorem widthOf_none {n : Nat} (h : widthOf n = none) : n ≠ 1 ∧ n ≠ 2 ∧ n ≠ 4 := by
  unfold widthOf at h
  split at h
  · simp at h
  split at h
  · simp at h
  split at h
  · simp at h
  exact ⟨‹_›, ‹_›, ‹_›⟩

theorem widthOf_some {n : Nat} {w} (h : widthOf n = some w) : n = w.nbits := by
  unfold widthOf at h
  split at h
  · cases h; simpa [Width.nbits]
  split at h
  · cases h; simpa [Width.nbits]
  split at h
  · cases h; simpa [Width.nbits]
  simp at h

/-- The three classes of R80 that raise InvalidCommand. -/
theorem decode_bad {w : CmdWord} : badCommand w → decode w = .invalidCommand w := by
  intro h
  unfold badCommand at h
  unfold decode
  by_cases h1 : cmdOp w = 3
  · simp [h1]
  by_cases h2 : cmdRsv w = 0
  · obtain ⟨h3, h4⟩ : cmdOp w = 1 ∧ cmdPolicy w = 3 := by tauto
    simp [h2, h3, h4, policyOf]
  · simp [h1, h2]

/-- Everything decoding can answer, and when (R75). -/
theorem decode_cases (w : CmdWord) :
    (badCommand w ∧ decode w = .invalidCommand w) ∨
    (badWidth w ∧ decode w = .invalidBitWidth (cmdNbits w)) ∨
    (¬ badCommand w ∧ ¬ badWidth w ∧ cmdOp w = 0 ∧ decode w = .instr (.bitrev (cmdPolicy w) (cmdNbits w))) ∨
    (¬ badCommand w ∧ ¬ badWidth w ∧ cmdOp w = 1 ∧ ∃ n pol, cmdNbits w = n.nbits ∧
      policyOf (cmdPolicy w) = some pol ∧ decode w = .instr (packInstr n pol)) ∨
    (¬ badCommand w ∧ ¬ badWidth w ∧ cmdOp w = 2 ∧ ∃ n, cmdNbits w = n.nbits ∧
      decode w = .instr (unpackInstr n (cmdPolicy w))) := by
  by_cases hb : badCommand w
  · exact .inl ⟨hb, decode_bad hb⟩
  have hb' := hb
  simp only [badCommand, not_or, not_and, not_not] at hb'
  obtain ⟨h1, h2, h3⟩ := hb'
  have := cmdOp_lt w
  have hop : cmdOp w = 0 ∨ cmdOp w = 1 ∨ cmdOp w = 2 := by omega
  rcases hop with h | h | h
  · refine .inr (.inr (.inl ⟨hb, ?_, h, ?_⟩))
    · rintro ⟨-, h', -⟩; omega
    · simp [decode, h, h2]
  · have hp := cmdPolicy_lt w
    have h3 := h3 h
    obtain ⟨pol, hpol⟩ : ∃ pol, policyOf (cmdPolicy w) = some pol := by
      have : cmdPolicy w = 0 ∨ cmdPolicy w = 1 ∨ cmdPolicy w = 2 := by omega
      rcases this with h | h | h <;> simp [policyOf, h]
    cases hw : widthOf (cmdNbits w) with
    | none => exact .inr (.inl ⟨⟨hb, .inl h, widthOf_none hw⟩, by simp [decode, h, h2, hpol, hw]⟩)
    | some n =>
      refine .inr (.inr (.inr (.inl ⟨hb, ?_, h, n, pol, widthOf_some hw, hpol, by simp [decode, h, h2, hpol, hw]⟩)))
      rintro ⟨-, -, h4⟩; rw [widthOf_some hw] at h4; cases n <;> simp [Width.nbits] at h4
  · cases hw : widthOf (cmdNbits w) with
    | none => exact .inr (.inl ⟨⟨hb, .inr h, widthOf_none hw⟩, by simp [decode, h, h2, hw]⟩)
    | some n =>
      refine .inr (.inr (.inr (.inr ⟨hb, ?_, h, n, widthOf_some hw, by simp [decode, h, h2, hw]⟩)))
      rintro ⟨-, -, h4⟩; rw [widthOf_some hw] at h4; cases n <;> simp [Width.nbits] at h4

end Sys2Proof.Machine
end

