-- ==== Sys2Proof/Laws/Memory.lean ====
section
/-! SUPPORT. The laws of one buffer: read after write, the canonical form, extensionality, and whole buffers. -/

namespace Sys2Proof.Machine

theorem Memory.read_write_same (m : Memory) (a : Nat) (b : Byte) :
    Memory.read (Memory.write m a b) a = some b := by
  induction m with
  | nil => simp [Memory.write, Memory.read]
  | cons c m ih =>
    obtain ⟨k, v⟩ := c
    unfold Memory.write
    split
    · simp [Memory.read]
    · split
      · simp [Memory.read]
      · simp [Memory.read, *]

theorem Memory.read_write_other (m : Memory) {a a' : Nat} (b : Byte) (h : a' ≠ a) :
    Memory.read (Memory.write m a b) a' = Memory.read m a' := by
  induction m with
  | nil => simp [Memory.write, Memory.read, h]
  | cons c m ih =>
    obtain ⟨k, v⟩ := c
    unfold Memory.write
    split
    · simp [Memory.read, h]
    · split
      · subst_vars; simp [Memory.read, h]
      · simp [Memory.read, ih]

theorem Memory.read_write (m : Memory) (a a' : Nat) (b : Byte) :
    Memory.read (Memory.write m a b) a' = if a' = a then some b else Memory.read m a' := by
  split
  · subst_vars; exact Memory.read_write_same ..
  · exact Memory.read_write_other _ _ ‹_›

/-- Every index of a written memory is the index written or an index it had. -/
theorem Memory.mem_write {m : Memory} {a : Nat} {b : Byte} {c : Host.Cell} (h : c ∈ Memory.write m a b) :
    c = (a, b) ∨ c ∈ m := by
  induction m with
  | nil => simpa [Memory.write] using h
  | cons d m ih =>
    obtain ⟨k, v⟩ := d
    unfold Memory.write at h
    split at h
    · simpa using h
    · split at h
      · rcases List.mem_cons.1 h with h | h
        · exact .inl h
        · exact .inr (List.mem_cons_of_mem _ h)
      · rcases List.mem_cons.1 h with h | h
        · exact .inr (h ▸ List.mem_cons_self)
        · exact (ih h).imp id (List.mem_cons_of_mem _)

theorem Memory.wf_cons {k : Nat} {v : Byte} {m : Memory} :
    Memory.wf ((k, v) :: m) = true ↔ (∀ c ∈ m, k < c.1) ∧ Memory.wf m = true := by
  simp [Memory.wf]

/-- A write keeps the canonical form. -/
theorem Memory.wf_write {m : Memory} (h : Memory.wf m = true) (a : Nat) (b : Byte) :
    Memory.wf (Memory.write m a b) = true := by
  induction m with
  | nil => simp [Memory.write, Memory.wf]
  | cons c m ih =>
    obtain ⟨k, v⟩ := c
    have ⟨hk, hm⟩ := Memory.wf_cons.1 h
    unfold Memory.write
    split
    · refine Memory.wf_cons.2 ⟨fun c hc => ?_, h⟩
      rcases List.mem_cons.1 hc with rfl | hc
      · assumption
      · exact Nat.lt_trans ‹_› (hk c hc)
    · split
      · subst_vars; exact Memory.wf_cons.2 ⟨hk, hm⟩
      · refine Memory.wf_cons.2 ⟨fun c hc => ?_, ih hm⟩
        rcases Memory.mem_write hc with rfl | hc
        · show k < a
          omega
        · exact hk c hc

/-- The cells written in turn keep the canonical form. -/
theorem wf_writeCells {m : Memory} (h : Memory.wf m = true) (cells : List Host.Cell) :
    Memory.wf (writeCells m cells) = true := by
  induction cells generalizing m with
  | nil => exact h
  | cons c cells ih => exact ih (Memory.wf_write h c.1 c.2)

theorem Memory.read_none_of_lt {m : Memory} {a : Nat} (h : ∀ c ∈ m, a < c.1) : Memory.read m a = none := by
  induction m with
  | nil => rfl
  | cons c m ih =>
    obtain ⟨k, v⟩ := c
    have hk : a < k := h (k, v) List.mem_cons_self
    simp only [Memory.read]
    rw [if_neg (by omega)]
    exact ih fun c hc => h c (List.mem_cons_of_mem _ hc)

theorem Memory.read_mem {m : Memory} {a : Nat} {b : Byte} (h : Memory.read m a = some b) : (a, b) ∈ m := by
  induction m with
  | nil => simp [Memory.read] at h
  | cons c m ih =>
    obtain ⟨k, v⟩ := c
    simp only [Memory.read] at h
    split at h
    · simp_all
    · exact List.mem_cons_of_mem _ (ih h)

/-- Two canonical memories that read alike are the same data. -/
theorem Memory.ext_of_wf {m m' : Memory} (h : Memory.wf m = true) (h' : Memory.wf m' = true)
    (hr : ∀ a, Memory.read m a = Memory.read m' a) : m = m' := by
  induction m generalizing m' with
  | nil =>
    cases m' with
    | nil => rfl
    | cons c m' =>
      obtain ⟨k, v⟩ := c
      have := hr k
      simp [Memory.read] at this
  | cons c m ih =>
    obtain ⟨k, v⟩ := c
    cases m' with
    | nil =>
      have := hr k
      simp [Memory.read] at this
    | cons c' m' =>
      obtain ⟨k', v'⟩ := c'
      have ⟨hk, hm⟩ := Memory.wf_cons.1 h
      have ⟨hk', hm'⟩ := Memory.wf_cons.1 h'
      have hkk : k = k' := by
        rcases Nat.lt_trichotomy k k' with hlt | heq | hlt
        · have h1 := hr k
          rw [Memory.read_none_of_lt (m := (k', v') :: m') (a := k)] at h1
          · simp [Memory.read] at h1
          · intro c hc
            rcases List.mem_cons.1 hc with rfl | hc
            · exact hlt
            · exact Nat.lt_trans hlt (hk' c hc)
        · exact heq
        · have h1 := hr k'
          rw [Memory.read_none_of_lt (m := (k, v) :: m) (a := k')] at h1
          · simp [Memory.read] at h1
          · intro c hc
            rcases List.mem_cons.1 hc with rfl | hc
            · exact hlt
            · exact Nat.lt_trans hlt (hk c hc)
      subst hkk
      have hv : v = v' := by simpa [Memory.read] using hr k
      subst hv
      refine congrArg _ (ih hm hm' fun a => ?_)
      by_cases ha : a = k
      · subst ha
        rw [Memory.read_none_of_lt hk, Memory.read_none_of_lt hk']
      · simpa [Memory.read, ha] using hr a

/-! ### Whole buffers -/

theorem Memory.full_iff {m : Memory} {len : Nat} :
    Memory.full m len = true ↔ m.map Prod.fst = List.range len := by
  simp [Memory.full]

theorem Memory.wf_iff_pairwise {m : Memory} :
    Memory.wf m = true ↔ (m.map Prod.fst).Pairwise (· < ·) := by
  induction m with
  | nil => simp [Memory.wf]
  | cons c m ih =>
    obtain ⟨k, v⟩ := c
    simp [Memory.wf, ih]

/-- A whole buffer is in canonical form. -/
theorem Memory.wf_of_full {m : Memory} {len : Nat} (h : Memory.full m len = true) : Memory.wf m = true := by
  rw [Memory.wf_iff_pairwise, Memory.full_iff.1 h]
  exact List.pairwise_lt_range

theorem Memory.read_isSome {m : Memory} {a : Nat} :
    (Memory.read m a).isSome = true ↔ a ∈ m.map Prod.fst := by
  induction m with
  | nil => simp [Memory.read]
  | cons c m ih =>
    obtain ⟨k, v⟩ := c
    simp only [Memory.read]
    split
    · simp_all
    · simp only [ih, List.map_cons, List.mem_cons]
      constructor
      · exact .inr
      · rintro (h | h)
        · exact absurd h ‹_›
        · exact h

theorem Memory.read_of_full {m : Memory} {len a : Nat} (h : Memory.full m len = true) (ha : a < len) :
    ∃ b, Memory.read m a = some b := by
  have : (Memory.read m a).isSome = true := by
    rw [Memory.read_isSome, Memory.full_iff.1 h]; simpa using ha
  exact Option.isSome_iff_exists.1 this

theorem Memory.read_none_of_full {m : Memory} {len a : Nat} (h : Memory.full m len = true) (ha : len ≤ a) :
    Memory.read m a = none := by
  have : ¬ (Memory.read m a).isSome = true := by
    rw [Memory.read_isSome, Memory.full_iff.1 h]; simpa using ha
  simpa using this

/-- A canonical memory that holds a byte exactly at the indices below `len` is a whole buffer of `len` bytes. -/
theorem Memory.full_of_reads {m : Memory} {len : Nat} (h : Memory.wf m = true)
    (hr : ∀ a, (Memory.read m a).isSome = true ↔ a < len) : Memory.full m len = true := by
  rw [Memory.full_iff]
  refine List.Perm.eq_of_pairwise' (r := (· ≤ ·))
    ((Memory.wf_iff_pairwise.1 h).imp Nat.le_of_lt) List.pairwise_le_range ?_
  refine (List.perm_ext_iff_of_nodup ((Memory.wf_iff_pairwise.1 h).imp Nat.ne_of_lt) List.nodup_range).2 fun a => ?_
  rw [← Memory.read_isSome, hr a, List.mem_range]

@[simp] theorem cellsFrom_fst (a : Nat) (bs : List Byte) :
    (cellsFrom a bs).map Prod.fst = List.range' a bs.length := by
  induction bs generalizing a with
  | nil => rfl
  | cons b bs ih => simp [cellsFrom, ih, List.range'_succ]

@[simp] theorem cellsFrom_snd (a : Nat) (bs : List Byte) : (cellsFrom a bs).map Prod.snd = bs := by
  induction bs generalizing a with
  | nil => rfl
  | cons b bs ih => simp [cellsFrom, ih]

@[simp] theorem Memory.full_ofBytes (bs : List Byte) : Memory.full (Memory.ofBytes bs) bs.length = true := by
  rw [Memory.full_iff, Memory.ofBytes, cellsFrom_fst, List.range_eq_range']

@[simp] theorem Memory.bytes_ofBytes (bs : List Byte) : Memory.bytes (Memory.ofBytes bs) = bs :=
  cellsFrom_snd 0 bs

theorem read_cellsFrom (a k : Nat) (bs : List Byte) :
    Memory.read (cellsFrom a bs) (a + k) = bs[k]? := by
  induction bs generalizing a k with
  | nil => simp [cellsFrom, Memory.read]
  | cons b bs ih =>
    cases k with
    | zero => simp [cellsFrom, Memory.read]
    | succ k =>
      have := ih (a + 1) k
      rw [show a + 1 + k = a + (k + 1) by omega] at this
      simp [cellsFrom, Memory.read, this]

@[simp] theorem Memory.read_ofBytes (bs : List Byte) (k : Nat) : Memory.read (Memory.ofBytes bs) k = bs[k]? := by
  simpa [Memory.ofBytes] using read_cellsFrom 0 k bs

/-- A whole buffer is the buffer of its own bytes. -/
theorem Memory.ofBytes_bytes {m : Memory} {len : Nat} (h : Memory.full m len = true) :
    Memory.ofBytes (Memory.bytes m) = m := by
  have hl : m.length = len := by
    have := congrArg List.length (Memory.full_iff.1 h)
    simpa using this
  have h1 : (Memory.ofBytes (Memory.bytes m)).map Prod.fst = m.map Prod.fst := by
    rw [Memory.full_iff.1 h, Memory.ofBytes, cellsFrom_fst, List.range_eq_range']
    simp [Memory.bytes, hl]
  have h2 : (Memory.ofBytes (Memory.bytes m)).map Prod.snd = m.map Prod.snd := by
    rw [Memory.ofBytes, cellsFrom_snd]; rfl
  calc Memory.ofBytes (Memory.bytes m)
      = List.zip ((Memory.ofBytes (Memory.bytes m)).map Prod.fst)
          ((Memory.ofBytes (Memory.bytes m)).map Prod.snd) := (List.zip_of_prod rfl rfl)
    _ = List.zip (m.map Prod.fst) (m.map Prod.snd) := by rw [h1, h2]
    _ = m := (List.zip_of_prod rfl rfl).symm

end Sys2Proof.Machine
end

