-- ==== Sys2Proof/Laws/State.lean ====
section
/-! SUPPORT. What each update of the state leaves in each field, true by definition, so that no later proof unfolds
a record update. -/

namespace Sys2Proof.Machine

@[simp] theorem accept_busy (s : State) (c : Command) : (s.accept c).busy = true := rfl
@[simp] theorem accept_command (s : State) (c : Command) : (s.accept c).command = some c := rfl
@[simp] theorem accept_progress (s : State) (c : Command) : (s.accept c).progress = Progress.empty := rfl
@[simp] theorem accept_response (s : State) (c : Command) : (s.accept c).response = none := rfl
@[simp] theorem accept_abandoned (s : State) (c : Command) : (s.accept c).abandoned = none := rfl
@[simp] theorem accept_config (s : State) (c : Command) : (s.accept c).config = s.config := rfl
@[simp] theorem accept_draws (s : State) (c : Command) : (s.accept c).draws = s.draws := rfl
@[simp] theorem accept_turns (s : State) (c : Command) : (s.accept c).turns = s.turns := rfl
@[simp] theorem accept_hostSaw (s : State) (c : Command) : (s.accept c).hostSaw = s.hostSaw := rfl

@[simp] theorem deliver_busy (s : State) (r : Response) : (s.deliver r).busy = false := rfl
@[simp] theorem deliver_command (s : State) (r : Response) : (s.deliver r).command = none := rfl
@[simp] theorem deliver_progress (s : State) (r : Response) : (s.deliver r).progress = Progress.empty := rfl
@[simp] theorem deliver_response (s : State) (r : Response) : (s.deliver r).response = some r := rfl
@[simp] theorem deliver_abandoned (s : State) (r : Response) : (s.deliver r).abandoned = s.abandoned := rfl
@[simp] theorem deliver_config (s : State) (r : Response) : (s.deliver r).config = s.config := rfl
@[simp] theorem deliver_draws (s : State) (r : Response) : (s.deliver r).draws = s.draws := rfl
@[simp] theorem deliver_turns (s : State) (r : Response) : (s.deliver r).turns = s.turns := rfl
@[simp] theorem deliver_hostSaw (s : State) (r : Response) : (s.deliver r).hostSaw = s.hostSaw := rfl

@[simp] theorem raise_busy (s : State) (e : CoreError) : (s.raise e).busy = false := rfl
@[simp] theorem raise_command (s : State) (e : CoreError) : (s.raise e).command = none := rfl
@[simp] theorem raise_progress (s : State) (e : CoreError) : (s.raise e).progress = Progress.empty := rfl
@[simp] theorem raise_response (s : State) (e : CoreError) :
    (s.raise e).response = some (errorResponse e) := rfl
@[simp] theorem raise_abandoned (s : State) (e : CoreError) : (s.raise e).abandoned = s.abandoned := rfl
@[simp] theorem raise_config (s : State) (e : CoreError) : (s.raise e).config = s.config := rfl
@[simp] theorem raise_draws (s : State) (e : CoreError) : (s.raise e).draws = s.draws := rfl
@[simp] theorem raise_turns (s : State) (e : CoreError) : (s.raise e).turns = s.turns := rfl
@[simp] theorem raise_hostSaw (s : State) (e : CoreError) : (s.raise e).hostSaw = s.hostSaw := rfl

@[simp] theorem dropTurn_busy (s : State) (ts : List Turn) : (s.dropTurn ts).busy = s.busy := rfl
@[simp] theorem dropTurn_command (s : State) (ts : List Turn) : (s.dropTurn ts).command = s.command := rfl
@[simp] theorem dropTurn_progress (s : State) (ts : List Turn) : (s.dropTurn ts).progress = s.progress := rfl
@[simp] theorem dropTurn_response (s : State) (ts : List Turn) : (s.dropTurn ts).response = s.response := rfl
@[simp] theorem dropTurn_abandoned (s : State) (ts : List Turn) : (s.dropTurn ts).abandoned = s.abandoned := rfl
@[simp] theorem dropTurn_config (s : State) (ts : List Turn) : (s.dropTurn ts).config = s.config := rfl
@[simp] theorem dropTurn_draws (s : State) (ts : List Turn) : (s.dropTurn ts).draws = s.draws := rfl
@[simp] theorem dropTurn_turns (s : State) (ts : List Turn) : (s.dropTurn ts).turns = ts := rfl
@[simp] theorem dropTurn_hostSaw (s : State) (ts : List Turn) : (s.dropTurn ts).hostSaw = s.hostSaw := rfl

@[simp] theorem drew_draws (s : State) (o : Operation) (len : Nat) :
    (s.drew o len).draws = if o.draws s.config then s.draws + len else s.draws := rfl
@[simp] theorem drew_config (s : State) (o : Operation) (len : Nat) : (s.drew o len).config = s.config := rfl
@[simp] theorem drew_turns (s : State) (o : Operation) (len : Nat) : (s.drew o len).turns = s.turns := rfl
@[simp] theorem drew_hostSaw (s : State) (o : Operation) (len : Nat) : (s.drew o len).hostSaw = s.hostSaw := rfl
@[simp] theorem drew_abandoned (s : State) (o : Operation) (len : Nat) :
    (s.drew o len).abandoned = s.abandoned := rfl
@[simp] theorem drew_response (s : State) (o : Operation) (len : Nat) : (s.drew o len).response = s.response := rfl
@[simp] theorem drew_busy (s : State) (o : Operation) (len : Nat) : (s.drew o len).busy = s.busy := rfl
@[simp] theorem drew_command (s : State) (o : Operation) (len : Nat) : (s.drew o len).command = s.command := rfl
@[simp] theorem drew_progress (s : State) (o : Operation) (len : Nat) : (s.drew o len).progress = s.progress := rfl

@[simp] theorem resetEvent_busy (s : State) : (resetEvent s).busy = false := by
  unfold resetEvent; split <;> rfl
@[simp] theorem resetEvent_command (s : State) : (resetEvent s).command = none := by
  unfold resetEvent; split <;> rfl
@[simp] theorem resetEvent_progress (s : State) : (resetEvent s).progress = Progress.empty := by
  unfold resetEvent; split <;> rfl
@[simp] theorem resetEvent_response (s : State) : (resetEvent s).response = none := by
  unfold resetEvent; split <;> rfl
@[simp] theorem resetEvent_config (s : State) : (resetEvent s).config = s.config := by
  unfold resetEvent; split <;> rfl
@[simp] theorem resetEvent_turns (s : State) : (resetEvent s).turns = s.turns := by
  unfold resetEvent; split <;> rfl
@[simp] theorem resetEvent_hostSaw (s : State) : (resetEvent s).hostSaw = s.hostSaw := by
  unfold resetEvent; split <;> rfl

end Sys2Proof.Machine
end

