-- ==== Sys2Proof/Laws/Ops.lean ====
section
/-! SUPPORT. One lemma for each shared operation that says what it does, which later proofs cite instead of
unfolding it: reading the input, the range scan, the work units, and `perform`. -/

namespace Sys2Proof.Machine

/-! ### Reading the input -/

theorem memRead_ok {c : Command} (h : c.wf = true) {i : Nat} (hi : i < c.n) :
    ∃ b, memRead c i = .ok b ∧ Memory.read c.ibuf i = some b ∧ c.byteAt i = b.toNat := by
  obtain ⟨b, hb⟩ := Memory.read_of_full h hi
  exact ⟨b, by simp [memRead, hi, hb], hb, by simp [Command.byteAt, hb]⟩

theorem byteAt_lt (c : Command) (i : Nat) : c.byteAt i < 256 := by
  unfold Command.byteAt
  cases Memory.read c.ibuf i with
  | none => simp
  | some b => simpa using b.isLt

theorem memReadRun_ok {c : Command} (h : c.wf = true) {start count : Nat} (hn : start + count ≤ c.n) :
    memReadRun c start count = .ok ((List.range count).map fun j => c.byteAt (start + j)) := by
  induction count generalizing start with
  | zero => rfl
  | succ k ih =>
    obtain ⟨b, hb, -, hbt⟩ := memRead_ok h (i := start) (by omega)
    rw [memReadRun, hb, ih (by omega)]
    simp only [List.range_succ_eq_map, List.map_cons, List.map_map, Nat.add_zero, hbt]
    refine congrArg Except.ok (congrArg _ (List.map_congr_left fun j _ => ?_))
    simp [Function.comp, Nat.add_assoc, Nat.add_comm 1 j]

/-! ### The range scan -/

/-- No sample from `i` on is above the limit, or the lowest one that is. -/
theorem scanFrom_ok {c : Command} (h : c.wf = true) (limit : Nat) {i count : Nat} (hn : i + count ≤ c.n) :
    (scanFrom c limit i count = .ok none ∧ ∀ k, i ≤ k → k < i + count → c.byteAt k ≤ limit) ∨
    (∃ k, scanFrom c limit i count = .ok (some k) ∧ i ≤ k ∧ k < i + count ∧ limit < c.byteAt k ∧
      ∀ m, i ≤ m → m < k → c.byteAt m ≤ limit) := by
  induction count generalizing i with
  | zero => exact .inl ⟨rfl, fun k h1 h2 => by omega⟩
  | succ n ih =>
    obtain ⟨b, hb, -, hbt⟩ := memRead_ok h (i := i) (by omega)
    rw [scanFrom, hb]
    by_cases hlt : limit < b.toNat
    · exact .inr ⟨i, by simp [hlt], by omega, by omega, by omega, fun m h1 h2 => by omega⟩
    · simp only [hlt, if_false]
      rcases ih (i := i + 1) (by omega) with ⟨h1, h2⟩ | ⟨k, h1, h2, h3, h4, h5⟩
      · refine .inl ⟨h1, fun k hk1 hk2 => ?_⟩
        rcases Nat.eq_or_lt_of_le hk1 with rfl | hk1
        · omega
        · exact h2 k (by omega) (by omega)
      · refine .inr ⟨k, h1, by omega, by omega, h4, fun m hm1 hm2 => ?_⟩
        rcases Nat.eq_or_lt_of_le hm1 with rfl | hm1
        · omega
        · exact h5 m (by omega) (by omega)

/-- What the checks answer, wherever the scan has got to: a length error; no error, all scanned samples in range;
or the lowest sample out of range. -/
theorem check_cases {o : Operation} {s : State} {c : Command} (h : c.wf = true) (hp : ProgressFrom o s c) :
    (∃ e, o.lengthError c.n = some e ∧ o.check c s.progress.scanned = .ok (some e)) ∨
    (o.lengthError c.n = none ∧ o.check c s.progress.scanned = .ok none ∧
      ∀ limit, o.scanLimit = some limit → ∀ k, k < c.n → c.byteAt k ≤ limit) ∨
    (o.lengthError c.n = none ∧ ∃ limit k, o.scanLimit = some limit ∧
      o.check c s.progress.scanned = .ok (some (.outOfRangeSample k)) ∧
      k < c.n ∧ limit < c.byteAt k ∧ ∀ m, m < k → c.byteAt m ≤ limit) := by
  unfold Operation.check
  cases hl : o.lengthError c.n with
  | some e => exact .inl ⟨e, rfl, rfl⟩
  | none =>
    refine .inr ?_
    cases hs : o.scanLimit with
    | none => exact .inl ⟨rfl, rfl, by simp⟩
    | some limit =>
      have hle : s.progress.scanned ≤ c.n := hp.1
      have hpre : ∀ k, k < s.progress.scanned → c.byteAt k ≤ limit := fun k hk => by
        obtain ⟨b, hb, hbl⟩ := hp.2.1 limit hs k hk
        simpa [Command.byteAt, hb] using hbl
      rcases scanFrom_ok h limit (i := s.progress.scanned) (count := c.n - s.progress.scanned) (by omega) with
        ⟨h1, h2⟩ | ⟨k, h1, h2, h3, h4, h5⟩
      · refine .inl ⟨rfl, by simp [h1], fun l hl k hk => ?_⟩
        cases hl
        by_cases hlt : k < s.progress.scanned
        · exact hpre k hlt
        · exact h2 k (by omega) (by omega)
      · refine .inr ⟨rfl, limit, k, rfl, by simp [h1], by omega, h4, fun m hm => ?_⟩
        by_cases hlt : m < s.progress.scanned
        · exact hpre m hlt
        · exact h5 m (by omega) hm

/-! ### The order of the work -/

/-- Every work unit stands in the lanes' order, and nothing else does. -/
theorem mem_workOrder {lanes units u : Nat} : u ∈ workOrder lanes units ↔ u < units := by
  unfold workOrder
  simp only [List.mem_flatMap, List.mem_filter, List.mem_map, List.mem_range, decide_eq_true_eq]
  constructor
  · rintro ⟨_, _, _, h⟩; exact h
  · intro hu
    have hl : 1 ≤ lanesFor lanes units := by unfold lanesFor; omega
    have hc : 1 ≤ chunkOf lanes units := by
      unfold chunkOf
      exact (Nat.one_le_div_iff (by omega)).2 (by omega)
    have hcov : units ≤ lanesFor lanes units * chunkOf lanes units := by
      unfold chunkOf
      have := Nat.div_add_mod (units + lanesFor lanes units - 1) (lanesFor lanes units)
      have := Nat.mod_lt (units + lanesFor lanes units - 1) (show 0 < lanesFor lanes units by omega)
      omega
    refine ⟨u % chunkOf lanes units, Nat.mod_lt _ (by omega), ⟨u / chunkOf lanes units, ?_, ?_⟩, hu⟩
    · exact (Nat.div_lt_iff_lt_mul (by omega)).2 (by omega)
    · exact Nat.div_add_mod' u _

theorem mem_remainingUnits {o : Operation} {s : State} {c : Command} {u : Nat} :
    u ∈ remainingUnits o s c ↔ u < o.units c.n ∧ u ∉ s.progress.done := by
  simp [remainingUnits, mem_workOrder]

/-! ### Work units -/

theorem writeCells_append (m : Memory) (xs ys : List Host.Cell) :
    writeCells m (xs ++ ys) = writeCells (writeCells m xs) ys := by
  simp [writeCells, List.foldl_append]

/-- Units that all succeed write their cells in turn. -/
theorem runUnits_ok {unit : Nat → Except Fault (List Host.Cell)} {cells : Nat → List Host.Cell}
    {us : List Nat} (h : ∀ u ∈ us, unit u = .ok (cells u)) (m : Memory) :
    runUnits unit us m = .ok (writeCells m (us.flatMap cells)) := by
  induction us generalizing m with
  | nil => rfl
  | cons u us ih =>
    rw [runUnits, h u List.mem_cons_self]
    simp only [List.flatMap_cons, writeCells_append]
    exact ih (fun v hv => h v (List.mem_cons_of_mem _ hv)) _

/-- One more unit after the others. -/
theorem runUnits_snoc {unit : Nat → Except Fault (List Host.Cell)} {us : List Nat} {u : Nat} {m m' : Memory}
    {cells : List Host.Cell} (h : runUnits unit us m = .ok m') (hu : unit u = .ok cells) :
    runUnits unit (us ++ [u]) m = .ok (writeCells m' cells) := by
  induction us generalizing m with
  | nil =>
    simp only [runUnits, Except.ok.injEq] at h
    simp [runUnits, hu, h]
  | cons v us ih =>
    simp only [runUnits, List.cons_append] at h ⊢
    split at h
    · simp at h
    · exact ih h

/-- Reading after cells that agree with `f` at every index they write. -/
theorem read_writeCells {f : Nat → Byte} {cells : List Host.Cell} (h : ∀ c ∈ cells, c.2 = f c.1) (m : Memory)
    (a : Nat) :
    Memory.read (writeCells m cells) a = if a ∈ cells.map Prod.fst then some (f a) else Memory.read m a := by
  induction cells generalizing m with
  | nil => simp [writeCells]
  | cons c cells ih =>
    have hc : c.2 = f c.1 := h c List.mem_cons_self
    have := ih (fun d hd => h d (List.mem_cons_of_mem _ hd)) (Memory.write m c.1 c.2)
    rw [show writeCells m (c :: cells) = writeCells (Memory.write m c.1 c.2) cells from rfl, this,
      Memory.read_write]
    by_cases h1 : a ∈ cells.map Prod.fst
    · rw [if_pos h1, if_pos (by simp only [List.map_cons, List.mem_cons]; exact .inr h1)]
    · by_cases h2 : a = c.1
      · subst h2; simp [h1, hc]
      · rw [if_neg h1, if_neg h2, if_neg (by simp only [List.map_cons, List.mem_cons, not_or]; exact ⟨h2, h1⟩)]

/-- What the units of an operation write on a command: unit `u` writes the indices `idx u`, each with the byte `f`
gives it, and together they write the indices below the output length. -/
structure UnitSpec (o : Operation) (cfg : Config) (draws : Nat) (c : Command) (idx : Nat → List Nat)
    (f : Nat → Byte) : Prop where
  cells : ∀ u, u < o.units c.n → o.unit cfg draws c u = .ok ((idx u).map fun a => (a, f a))
  cover : ∀ a, (∃ u, u < o.units c.n ∧ a ∈ idx u) ↔ a < o.length c.n

/-- `perform` from anywhere in the work: no command held; an error; or the whole output. -/
theorem perform_ok {o : Operation} {s : State} {c : Command} {idx : Nat → List Nat} {f : Nat → Byte}
    (hc : s.command = some c) (hp : ProgressFrom o s c) (hu : UnitSpec o s.config s.draws c idx f)
    (hk : o.check c s.progress.scanned = .ok none) :
    ∃ m, perform o s = .next ((s.drew o (o.length c.n)).deliver (okResponse (o.length c.n) m)) ∧
      Holds m (o.length c.n) f := by
  obtain ⟨-, -, -, hdone, -, hrun⟩ := hp
  have hrun' := runUnits_ok (fun u hu' => hu.cells u (hdone u hu')) (us := s.progress.done) []
  rw [hrun] at hrun'
  have hw := Except.ok.inj hrun'
  have hrest := runUnits_ok
    (fun u hu' => hu.cells u (mem_remainingUnits.1 hu').1) (us := remainingUnits o s c) s.progress.written
  refine ⟨writeCells s.progress.written ((remainingUnits o s c).flatMap fun u => (idx u).map fun a => (a, f a)),
    by simp only [perform, hc, hk, hrest], ?_⟩
  rw [hw, ← writeCells_append, ← List.flatMap_append]
  have hcell : ∀ d ∈ (s.progress.done ++ remainingUnits o s c).flatMap
      (fun u => (idx u).map fun a => (a, f a)), d.2 = f d.1 := by
    intro d hd
    obtain ⟨u, -, hd⟩ := List.mem_flatMap.1 hd
    obtain ⟨a, -, rfl⟩ := List.mem_map.1 hd
    rfl
  have hread := read_writeCells hcell ([] : Memory)
  have hmem : ∀ a, a ∈ ((s.progress.done ++ remainingUnits o s c).flatMap
      (fun u => (idx u).map fun a => (a, f a))).map Prod.fst ↔ a < o.length c.n := by
    intro a
    rw [← hu.cover a]
    simp only [List.mem_map, List.mem_flatMap, List.mem_append, mem_remainingUnits]
    constructor
    · rintro ⟨_, ⟨u, hu', b, hb, rfl⟩, rfl⟩
      exact ⟨u, hu'.elim (hdone u) (·.1), hb⟩
    · rintro ⟨u, hu', ha⟩
      refine ⟨(a, f a), ⟨u, ?_, a, ha, rfl⟩, rfl⟩
      by_cases hd : u ∈ s.progress.done
      · exact .inl hd
      · exact .inr ⟨hu', hd⟩
  refine ⟨Memory.full_iff.1 (Memory.full_of_reads (wf_writeCells rfl _) fun a => ?_), fun j hj => ?_⟩
  · rw [hread a]
    by_cases ha : a < o.length c.n
    · rw [if_pos ((hmem a).2 ha)]
      simp [ha]
    · rw [if_neg (fun h => ha ((hmem a).1 h))]
      simp [Memory.read, ha]
  · rw [hread j, if_pos ((hmem j).2 hj)]

/-- A command whose work has not begun is in order for any operation. -/
theorem progressFrom_empty (o : Operation) (s : State) (c : Command) (h : s.progress = Progress.empty) :
    ProgressFrom o s c := by
  unfold ProgressFrom
  simp [h, Progress.empty, runUnits]

theorem performing_fresh {s : State} {i : Instr} {c : Command} (hc : s.command = some c) (hw : c.wf = true)
    (h : s.progress = Progress.empty) : s.Performing i c :=
  ⟨hc, hw, progressFrom_empty _ _ _ h⟩

/-- Everything `perform` can do. -/
theorem perform_cases {o : Operation} {s t : State} (h : perform o s = .next t) :
    ∃ c, s.command = some c ∧
      ((∃ e, o.check c s.progress.scanned = .ok (some e) ∧ t = s.raise e) ∨
       (∃ m, o.check c s.progress.scanned = .ok none ∧
         runUnits (o.unit s.config s.draws c) (remainingUnits o s c) s.progress.written = .ok m ∧
         t = (s.drew o (o.length c.n)).deliver (okResponse (o.length c.n) m))) := by
  unfold perform at h
  split at h
  · simp at h
  · rename_i c hc
    refine ⟨c, hc, ?_⟩
    split at h
    · simp at h
    · simp only [Host.Outcome.next.injEq] at h
      exact .inl ⟨_, ‹_›, h.symm⟩
    · split at h
      · simp at h
      · simp only [Host.Outcome.next.injEq] at h
        exact .inr ⟨_, ‹_›, ‹_›, h.symm⟩

/-- The word of the command in flight reaches no operation: only its length and its input do (R24). -/
theorem scanFrom_cmd (c : Command) (w : CmdWord) (limit i k : Nat) :
    scanFrom { c with cmd := w } limit i k = scanFrom c limit i k := by
  induction k generalizing i with
  | zero => rfl
  | succ k ih =>
    have hr : memRead { c with cmd := w } = memRead c := rfl
    simp only [scanFrom, hr, ih]

theorem perform_cmd {o : Operation} (ho : ∀ cfg d c w, o.unit cfg d { c with cmd := w } = o.unit cfg d c)
    (s : State) (c : Command) (w : CmdWord) :
    perform o { s with command := some { c with cmd := w } } = perform o { s with command := some c } := by
  have hk : ∀ x, o.check { c with cmd := w } x = o.check c x := fun x => by
    simp only [Operation.check, scanFrom_cmd]
  simp only [perform, ho, hk]
  rfl

/-- Two memories that hold the same bytes at the same indices are the same data. -/
theorem Holds.unique {m m' : Memory} {len : Nat} {f g : Nat → Byte} (h : Holds m len f) (h' : Holds m' len g)
    (hfg : ∀ j, j < len → f j = g j) : m = m' := by
  have hf := Memory.full_iff.2 h.1
  have hf' := Memory.full_iff.2 h'.1
  refine Memory.ext_of_wf (Memory.wf_of_full hf) (Memory.wf_of_full hf') fun a => ?_
  by_cases ha : a < len
  · rw [h.2 a ha, h'.2 a ha, hfg a ha]
  · rw [Memory.read_none_of_full hf (by omega), Memory.read_none_of_full hf' (by omega)]

end Sys2Proof.Machine
end

