-- ==== Sys2Proof/Laws/PerInstr.lean ====
section
/-! SUPPORT. A statement about every instruction as syntax, one lemma a constructor: a well-formed instruction's word
matches the instruction's own row of the opcode map (30_encoding.md R79). -/

namespace Sys2Proof.Laws.MatchesItsRow

/-- The word of a well-formed instruction matches its row: `(CMD & mask) == match` (R79). -/
def Statement (i : Instr) : Prop := i.wf = true → i.row.covers (encode i) = true

theorem bitrev (p n : Nat) : Statement (.bitrev p n) := by
  intro h
  obtain ⟨hp, hn⟩ : p < 4 ∧ n < 256 := by simpa [Instr.wf, fitsPolicy, fitsNbits] using h
  have h4 : ∀ p : Fin 4, ∀ n : Fin 256, (Instr.row (.bitrev p n)).covers (encode (.bitrev p n)) = true := by
    decide +kernel
  exact h4 ⟨p, hp⟩ ⟨n, hn⟩

theorem pack1Trust : Statement .pack1Trust := fun _ => by decide
theorem pack1Mask : Statement .pack1Mask := fun _ => by decide
theorem pack1Strict : Statement .pack1Strict := fun _ => by decide
theorem pack2Trust : Statement .pack2Trust := fun _ => by decide
theorem pack2Mask : Statement .pack2Mask := fun _ => by decide
theorem pack2Strict : Statement .pack2Strict := fun _ => by decide
theorem pack4Trust : Statement .pack4Trust := fun _ => by decide
theorem pack4Mask : Statement .pack4Mask := fun _ => by decide
theorem pack4Strict : Statement .pack4Strict := fun _ => by decide

theorem unpack1 (p : Nat) : Statement (.unpack1 p) := by
  intro h
  have h4 : ∀ p : Fin 4, (Instr.row (.unpack1 p)).covers (encode (.unpack1 p)) = true := by decide
  exact h4 ⟨p, by simpa [Instr.wf, fitsPolicy] using h⟩

theorem unpack2 (p : Nat) : Statement (.unpack2 p) := by
  intro h
  have h4 : ∀ p : Fin 4, (Instr.row (.unpack2 p)).covers (encode (.unpack2 p)) = true := by decide
  exact h4 ⟨p, by simpa [Instr.wf, fitsPolicy] using h⟩

theorem unpack4 (p : Nat) : Statement (.unpack4 p) := by
  intro h
  have h4 : ∀ p : Fin 4, (Instr.row (.unpack4 p)).covers (encode (.unpack4 p)) = true := by decide
  exact h4 ⟨p, by simpa [Instr.wf, fitsPolicy] using h⟩

end Sys2Proof.Laws.MatchesItsRow
end

