-- ==== Sys2Proof/Laws/Results.lean ====
section
/-! SUPPORT. What each unit's work writes, byte by byte, and that the two builds of bit_reversal_lut agree. -/

namespace Sys2Proof.Machine

/-! ### bitrev -/

theorem brlut_length : brlut.length = 256 := by decide +kernel

theorem brlutAt_eq (x : Byte) : brlutAt x = rev8 x := by
  revert x; decide +kernel

theorem revFormula_eq (x : Byte) : trunc8 (revFormula wideBits x) = rev8 x := by
  revert x; decide +kernel

/-- Both builds give `rev8` (R103). -/
@[simp] theorem reverseByte_eq (cfg : Config) (x : Byte) : reverseByte cfg x = rev8 x := by
  unfold reverseByte
  split
  · exact brlutAt_eq x
  · exact revFormula_eq x

theorem bitrev_units {c : Command} (h : c.wf = true) (cfg : Config) (draws : Nat) :
    UnitSpec bitrevOp cfg draws c (fun u => [u]) (fun j => rev8 (trunc8 (c.byteAt j))) where
  cells u hu := by
    obtain ⟨b, hb, -, hbt⟩ := memRead_ok h hu
    simp [bitrevOp, bitrevUnit, hb, hbt, trunc8]
  cover a := by simp [bitrevOp]

/-! ### pack -/

/-- The samples of group `g`. -/
def groupSamples (n : Width) (c : Command) (g : Nat) : List Nat :=
  (List.range (samplesPerByte n)).map fun j => c.byteAt (g * samplesPerByte n + j)

theorem samplesPerByte_pos (n : Width) : 0 < samplesPerByte n := by cases n <;> decide

theorem pack_units {c : Command} (h : c.wf = true) (n : Width) (pol : Policy) (cfg : Config) (draws : Nat) :
    UnitSpec (packOp n pol) cfg draws c (fun g => [g])
      (fun g => packByte cfg n pol (draws + g) (groupSamples n c g)) where
  cells g hg := by
    have hk := samplesPerByte_pos n
    have hn : g * samplesPerByte n + samplesPerByte n ≤ c.n := by
      have h1 : g + 1 ≤ c.n / samplesPerByte n := hg
      have h2 := (Nat.le_div_iff_mul_le hk).1 h1
      rw [Nat.add_mul, Nat.one_mul] at h2
      exact h2
    simp [packOp, packUnit, memReadRun_ok h hn, groupSamples]
  cover a := by simp [packOp]

/-! ### unpack -/

/-- `SH(n, j) = 8 - n*(j+1)` in the order of the fields (R12, R29). -/
theorem shifts_eq (n : Width) :
    shifts n = (List.range (samplesPerByte n)).map fun j => 8 - n.nbits * (j + 1) := by
  cases n <;> decide

theorem fmask_eq (n : Width) : fmask n = 2 ^ n.nbits - 1 := by cases n <;> decide

theorem samplesPerByte_eq (n : Width) : samplesPerByte n = 8 / n.nbits := by cases n <;> decide

theorem cellsFrom_map (start : Nat) (g : Nat → Byte) (k : Nat) :
    cellsFrom start ((List.range k).map g) =
      (List.range k).map fun j => (start + j, g j) := by
  induction k generalizing start g with
  | zero => rfl
  | succ k ih =>
    rw [List.range_succ_eq_map, List.map_cons, List.map_map, List.map_cons, List.map_map]
    show (start, g 0) :: cellsFrom (start + 1) ((List.range k).map (g ∘ Nat.succ)) = _
    rw [ih]
    refine congrArg _ (List.map_congr_left fun j _ => ?_)
    simp [Function.comp]; omega

theorem unpack_units {c : Command} (h : c.wf = true) (n : Width) (cfg : Config) (draws : Nat) :
    UnitSpec (unpackOp n) cfg draws c
      (fun u => (List.range (samplesPerByte n)).map fun j => u * samplesPerByte n + j)
      (fun a => trunc8 ((c.byteAt (a / samplesPerByte n) >>>
        (8 - n.nbits * (a % samplesPerByte n + 1))) &&& fmask n)) where
  cells u hu := by
    obtain ⟨b, hb, -, hbt⟩ := memRead_ok h hu
    have hk := samplesPerByte_pos n
    simp only [unpackOp, unpackUnit, hb, unpackFields, shifts_eq, List.map_map, Except.ok.injEq]
    rw [cellsFrom_map]
    refine List.map_congr_left fun j hj => ?_
    have hj : j < samplesPerByte n := List.mem_range.1 hj
    have h1 : (u * samplesPerByte n + j) / samplesPerByte n = u := by
      rw [Nat.mul_comm, Nat.mul_add_div hk, Nat.div_eq_of_lt hj, Nat.add_zero]
    have h2 : (u * samplesPerByte n + j) % samplesPerByte n = j := by
      rw [Nat.mul_comm, Nat.mul_add_mod, Nat.mod_eq_of_lt hj]
    simp [h1, h2, hbt]
  cover a := by
    have hk := samplesPerByte_pos n
    simp only [unpackOp, List.mem_map, List.mem_range]
    constructor
    · rintro ⟨u, hu, j, hj, rfl⟩
      calc u * samplesPerByte n + j < (u + 1) * samplesPerByte n := by rw [Nat.add_mul]; omega
        _ ≤ c.n * samplesPerByte n := Nat.mul_le_mul_right _ hu
    · intro ha
      exact ⟨a / samplesPerByte n, (Nat.div_lt_iff_lt_mul hk).2 ha, a % samplesPerByte n, Nat.mod_lt _ hk,
        Nat.div_add_mod' a _⟩

/-! ### Every instruction's operation -/

theorem exec_eq_perform (i : Instr) (s : State) : exec i s = perform (operationOf i) s := by
  cases i <;> rfl

theorem operationOf_packInstr (n : Width) (pol : Policy) : operationOf (packInstr n pol) = packOp n pol := by
  cases n <;> cases pol <;> rfl

theorem operationOf_unpackInstr (n : Width) (p : Nat) : operationOf (unpackInstr n p) = unpackOp n := by
  cases n <;> rfl

/-- Every instruction is `bitrev`, a `pack` or an `unpack`. -/
theorem instr_cases (i : Instr) :
    (∃ p n, i = .bitrev p n) ∨ (∃ n pol, i = packInstr n pol) ∨ (∃ n p, i = unpackInstr n p) := by
  cases i with
  | bitrev p n => exact .inl ⟨p, n, rfl⟩
  | pack1Trust => exact .inr (.inl ⟨.one, .trust, rfl⟩)
  | pack1Mask => exact .inr (.inl ⟨.one, .mask, rfl⟩)
  | pack1Strict => exact .inr (.inl ⟨.one, .strict, rfl⟩)
  | pack2Trust => exact .inr (.inl ⟨.two, .trust, rfl⟩)
  | pack2Mask => exact .inr (.inl ⟨.two, .mask, rfl⟩)
  | pack2Strict => exact .inr (.inl ⟨.two, .strict, rfl⟩)
  | pack4Trust => exact .inr (.inl ⟨.four, .trust, rfl⟩)
  | pack4Mask => exact .inr (.inl ⟨.four, .mask, rfl⟩)
  | pack4Strict => exact .inr (.inl ⟨.four, .strict, rfl⟩)
  | unpack1 p => exact .inr (.inr ⟨.one, p, rfl⟩)
  | unpack2 p => exact .inr (.inr ⟨.two, p, rfl⟩)
  | unpack4 p => exact .inr (.inr ⟨.four, p, rfl⟩)

/-- Every instruction's units write the output it has, whatever the instruction. -/
theorem units_of {c : Command} (h : c.wf = true) (i : Instr) (cfg : Config) (draws : Nat) :
    ∃ idx f, UnitSpec (operationOf i) cfg draws c idx f := by
  rcases instr_cases i with ⟨p, n, rfl⟩ | ⟨n, pol, rfl⟩ | ⟨n, p, rfl⟩
  · exact ⟨_, _, bitrev_units h cfg draws⟩
  · rw [operationOf_packInstr]; exact ⟨_, _, pack_units h n pol cfg draws⟩
  · rw [operationOf_unpackInstr]; exact ⟨_, _, unpack_units h n cfg draws⟩

/-! ### The input as whole data -/

theorem byteAt_eq {c : Command} {i : Nat} {b : Byte} (h : Memory.read c.ibuf i = some b) :
    c.byteAt i = b.toNat := by
  simp [Command.byteAt, h]

theorem read_eq_byteAt {c : Command} (h : c.wf = true) {i : Nat} (hi : i < c.n) :
    Memory.read c.ibuf i = some (BitVec.ofNat 8 (c.byteAt i)) := by
  obtain ⟨b, -, hb, hbt⟩ := memRead_ok h hi
  rw [hb, hbt]; simp

theorem holds_ibuf {c : Command} (h : c.wf = true) :
    Holds c.ibuf c.n (fun j => BitVec.ofNat 8 (c.byteAt j)) :=
  ⟨Memory.full_iff.1 h, fun _ hj => read_eq_byteAt h hj⟩

/-! ### The packed byte -/

theorem drawsFree_iff {cfg : Config} {pol : Policy} :
    drawsFree cfg pol = true ↔ pol = .trust ∧ cfg.oorTrust = .any := by
  simp [drawsFree]

/-- A group that draws gets its free byte (R124). -/
theorem packByte_draw {cfg : Config} {n : Width} {pol : Policy} {d : Nat} {xs : List Nat}
    (h : drawsFree cfg pol = true) (hx : outOfRange n xs = true) :
    packByte cfg n pol d xs = Config.freeByte d := by
  simp [packByte, h, hx]

/-- Every other group gets the formula's byte, whatever its draw would have been (R121, R123, R124). -/
theorem packByte_formula {cfg : Config} {n : Width} {pol : Policy} {d : Nat} {xs : List Nat}
    (h : drawsFree cfg pol = true → outOfRange n xs = false) :
    packByte cfg n pol d xs = trunc8 (orFields n (xs.map (condition n pol))) := by
  unfold packByte
  cases hd : drawsFree cfg pol with
  | false => rfl
  | true => rw [h hd]; rfl

/-! ### Completion of pack and unpack -/

theorem outOfRange_iff {n : Width} {c : Command} {g : Nat} :
    outOfRange n (groupSamples n c g) = true ↔
      ∃ j, j < samplesPerByte n ∧ fmask n < c.byteAt (g * samplesPerByte n + j) := by
  simp [outOfRange, groupSamples]

/-- A legal length, and under STRICT samples in range, pass the checks of `pack`. -/
theorem check_pack {s : State} {c : Command} {n : Width} {pol : Policy} (h : c.wf = true)
    (hp : ProgressFrom (packOp n pol) s c) (hn : c.n % samplesPerByte n = 0)
    (hr : pol = .strict → ∀ i, i < c.n → c.byteAt i ≤ fmask n) :
    (packOp n pol).check c s.progress.scanned = .ok none := by
  rcases check_cases h hp with ⟨e, h1, -⟩ | ⟨-, h1, -⟩ | ⟨-, l, k, h1, -, h3, h4, -⟩
  · simp [packOp, packLengthError, hn] at h1
  · exact h1
  · cases pol <;> simp [packOp, packScanLimit] at h1
    have := hr rfl k h3
    omega

/-- `pack` on a legal length, and under STRICT on samples in range, answers OK with every group's byte. -/
theorem pack_done {s : State} {c : Command} {n : Width} {pol : Policy} (h : s.Performing (packInstr n pol) c)
    (hn : c.n % samplesPerByte n = 0) (hr : pol = .strict → ∀ i, i < c.n → c.byteAt i ≤ fmask n) :
    ∃ m, exec (packInstr n pol) s = .next (s.answered ⟨0, 0, c.n / samplesPerByte n, m⟩
        (if pol = .trust ∧ s.config.oorTrust = .any then c.n / samplesPerByte n else 0)) ∧
      Holds m (c.n / samplesPerByte n)
        (fun g => packByte s.config n pol (s.draws + g) (groupSamples n c g)) := by
  obtain ⟨hc, hw, hp⟩ := h
  rw [operationOf_packInstr] at hp
  obtain ⟨m, h1, h2⟩ := perform_ok hc hp (pack_units hw n pol _ _) (check_pack hw hp hn hr)
  refine ⟨m, ?_, h2⟩
  rw [exec_eq_perform, operationOf_packInstr, h1]
  simp only [State.drew, State.deliver, State.answered, okResponse, statusOk, packOp, drawsFree]
  by_cases h1 : pol = .trust <;> by_cases h2 : s.config.oorTrust = .any <;> simp [h1, h2]

end Sys2Proof.Machine
end

