-- ==== Sys2Proof/Laws/Turns.lean ====
section
/-! SUPPORT. Everything a turn of CORE or HOST can do when it has a next state, and how a
run takes one step: the inversion lemmas that later proofs cite instead of unfolding a turn. -/

namespace Sys2Proof.Machine

/-! ### CORE -/

/-- The only length error is InvalidLength, and only `pack` has one (R126, R172). -/
theorem lengthError_cases (i : Instr) (n : Nat) (e) (h : (operationOf i).lengthError n = some e) :
    e = .invalidLength n ∧ ∃ w pol, i = packInstr w pol ∧ n % samplesPerByte w ≠ 0 := by
  rcases instr_cases i with ⟨p, k, rfl⟩ | ⟨w, pol, rfl⟩ | ⟨w, p, rfl⟩
  · simp [operationOf, bitrevOp] at h
  · rw [operationOf_packInstr] at h
    simp only [packOp, packLengthError] at h
    split at h
    · simp at h
    · simp at h; exact ⟨h.symm, w, pol, rfl, ‹_›⟩
  · rw [operationOf_unpackInstr] at h; simp [unpackOp] at h

/-- The only errors of an operation's own checks (R175). -/
theorem check_error {i : Instr} {c : Command} {x : Nat} {e} (h : (operationOf i).check c x = .ok (some e)) :
    (∃ n, e = .invalidLength n) ∨ ∃ k, e = .outOfRangeSample k := by
  simp only [Operation.check] at h
  split at h
  · rename_i e' hl
    simp at h; subst h
    exact .inl ⟨_, (lengthError_cases i _ _ hl).1⟩
  · split at h
    · simp at h
    · split at h
      · simp at h
      · simp at h
      · simp at h; subst h; exact .inr ⟨_, rfl⟩

/-- Performing the command in flight answers it, and leaves the rest of the state but the free-byte counter. -/
theorem runCommand_cases {s t : State} (h : runCommand s = .next t) :
    ∃ r d, t = s.answered r d := by
  unfold runCommand at h
  split at h
  · simp at h
  split at h
  · rw [exec_eq_perform] at h
    obtain ⟨c', hc', ⟨e, he, rfl⟩ | ⟨m, -, -, rfl⟩⟩ := perform_cases h
    · exact ⟨_, 0, rfl⟩
    · rename_i i _
      refine ⟨okResponse ((operationOf i).length c'.n) m,
        if (operationOf i).draws s.config then (operationOf i).length c'.n else 0, ?_⟩
      simp only [State.drew, State.deliver, State.answered]
      congr 1
      split <;> simp
  · cases h; exact ⟨_, 0, rfl⟩
  · cases h; exact ⟨_, 0, rfl⟩

theorem inFlight_some {s : State} {c o} (h : s.inFlight = some (c, o)) :
    s.command = some c ∧ ∃ i, decode c.cmd = .instr i ∧ o = operationOf i := by
  unfold State.inFlight at h
  split at h
  · simp at h
  · rename_i c' hc
    split at h
    · rename_i i hi; simp at h; obtain ⟨rfl, rfl⟩ := h; exact ⟨hc, i, hi, rfl⟩
    · simp at h
    · simp at h

/-- Everything a scan turn can do. -/
theorem scanOne_cases {s t : State} (h : scanOne s = .next t) :
    t = s ∨ ∃ c o limit b, s.inFlight = some (c, o) ∧ o.lengthError c.n = none ∧ o.scanLimit = some limit ∧
      s.progress.scanned < c.n ∧ memRead c s.progress.scanned = .ok b ∧ b.toNat ≤ limit ∧
      t = { s with progress := { s.progress with scanned := s.progress.scanned + 1 } } := by
  unfold scanOne at h
  split at h
  · cases h; exact .inl rfl
  · rename_i c o hf
    split at h
    · rename_i limit h1 h2
      split at h
      · rename_i hlt
        split at h
        · simp at h
        · rename_i b hb
          split at h
          · cases h; exact .inl rfl
          · cases h; exact .inr ⟨c, o, limit, b, hf, h1, h2, hlt, hb, by omega, rfl⟩
      · cases h; exact .inl rfl
    · cases h; exact .inl rfl

/-- Everything a unit turn can do. -/
theorem computeUnit_cases {u : Nat} {s t : State} (h : computeUnit u s = .next t) :
    t = s ∨ ∃ c o cells, s.inFlight = some (c, o) ∧ o.mayWrite c s.progress.scanned = true ∧ u < o.units c.n ∧
      u ∉ s.progress.done ∧ o.unit s.config s.draws c u = .ok cells ∧
      t = { s with progress := { s.progress with
        done := s.progress.done ++ [u]
        written := writeCells s.progress.written cells } } := by
  unfold computeUnit at h
  split at h
  · cases h; exact .inl rfl
  · rename_i c o hf
    split at h
    · rename_i hc
      split at h
      · simp at h
      · cases h; exact .inr ⟨c, o, _, hf, hc.1, hc.2.1, hc.2.2, ‹_›, rfl⟩
    · cases h; exact .inl rfl

/-- What an instruction does wherever CORE is in its work: one error, the same from anywhere; or the whole output. -/
theorem exec_done {s : State} {c : Command} {i : Instr} (h : s.Performing i c) {idx f}
    (hu : UnitSpec (operationOf i) s.config s.draws c idx f) :
    (∃ e, exec i s = .next (s.raise e) ∧ ∀ s' : State, s'.Performing i c → exec i s' = .next (s'.raise e)) ∨
    (∃ m, exec i s = .next ((s.drew (operationOf i) ((operationOf i).length c.n)).deliver
        (okResponse ((operationOf i).length c.n) m)) ∧
      Holds m ((operationOf i).length c.n) f ∧
      ∀ s' : State, s'.Performing i c → (operationOf i).check c s'.progress.scanned = .ok none) := by
  obtain ⟨hc, hw, hp⟩ := h
  rw [exec_eq_perform]
  rcases check_cases hw hp with ⟨e, h1, h2⟩ | ⟨h0, h1, hl⟩ | ⟨h0, l, k, h1, h2, h3, h4, h5⟩
  · refine .inl ⟨e, by simp only [perform, hc, h2], fun s' ⟨hc', hw', hp'⟩ => ?_⟩
    rw [exec_eq_perform]
    simp [perform, hc', Operation.check, h1]
  · obtain ⟨m, h3, h4⟩ := perform_ok hc hp hu h1
    refine .inr ⟨m, h3, h4, fun s' ⟨hc', hw', hp'⟩ => ?_⟩
    rcases check_cases hw' hp' with ⟨e, g1, g2⟩ | ⟨-, g1, -⟩ | ⟨-, l, k, g1, g2, g3, g4, g5⟩
    · rw [h0] at g1; simp at g1
    · exact g1
    · have := hl l g1 k g3; omega
  · refine .inl ⟨.outOfRangeSample k, by simp only [perform, hc, h2], fun s' ⟨hc', hw', hp'⟩ => ?_⟩
    rw [exec_eq_perform]
    rcases check_cases hw' hp' with ⟨e, g1, g2⟩ | ⟨-, g1, g2⟩ | ⟨-, l', k', g1, g2, g3, g4, g5⟩
    · rw [h0] at g1; simp at g1
    · have := g2 l h1 k h3; omega
    · rw [h1] at g1; cases g1
      have : k = k' := by
        rcases Nat.lt_trichotomy k k' with h | h | h
        · have := g5 k h; omega
        · exact h
        · have := h5 k' h; omega
      subst this
      simp only [perform, hc', g2]

/-! ### HOST -/

/-- Everything presenting a command can do. -/
theorem present_cases {f i p} {s t : State} (h : present f i p s = .next t) :
    s.busy = false ∧ ∃ w bytes, f.cmdWord = some w ∧ i.bytes s = some bytes ∧
      s.config.allows bytes.length = true ∧
      s.config.allows (outputLength ⟨w, bytes.length, Memory.ofBytes bytes⟩) = true ∧
      p.overlaps bytes.length (outputLength ⟨w, bytes.length, Memory.ofBytes bytes⟩) = false ∧
      t = s.accept ⟨w, bytes.length, Memory.ofBytes bytes⟩ := by
  unfold present at h
  split at h
  · simp at h
  rename_i hb
  split at h
  · simp at h
  rename_i w hw
  split at h
  · simp at h
  rename_i bytes hbytes
  dsimp only at h
  split at h
  · simp at h
  split at h
  · simp at h
  split at h
  · simp at h
  cases h
  refine ⟨by simpa using hb, w, bytes, hw, hbytes, by simpa using ‹¬¬_›, ?_,
    by simpa using ‹¬ (Placement.overlaps _ _ _ = true)›, rfl⟩
  rename_i h2 _
  simpa using h2

/-! ### Steps and runs -/

theorem step_nil {s : State} (h : s.turns = []) : step s = noTurn s := by simp [step, h]

theorem step_cons {s : State} {t : Turn} {rest : List Turn} (h : s.turns = t :: rest) :
    step s = takeTurn t (s.dropTurn rest) := by simp [step, h]

theorem run_succ {k : Nat} {a b : State} (h : step a = .next b) :
    Sys2Proof.core.run (k + 1) a = Sys2Proof.core.run k b := by
  have h' : Sys2Proof.core.step a = .next b := h
  simp only [Host.Core.run, h']

theorem run_succ_cases {k : Nat} {a t : State} (h : Sys2Proof.core.run (k + 1) a = .next t) :
    ∃ b, step a = .next b ∧ Sys2Proof.core.run k b = .next t := by
  simp only [Host.Core.run] at h
  split at h
  · exact ⟨_, ‹_›, h⟩
  · simp at h
  · simp at h

/-- No turn changes the turns to come. -/
theorem takeTurn_turns {tn : Turn} {s t : State} (h : takeTurn tn s = .next t) : t.turns = s.turns := by
  cases tn with
  | core ct =>
    simp only [takeTurn, coreTurn] at h
    split at h
    · cases ct with
      | scan => rcases scanOne_cases h with rfl | ⟨_, _, _, _, _, _, _, _, _, _, rfl⟩ <;> rfl
      | unit u => rcases computeUnit_cases h with rfl | ⟨_, _, _, _, _, _, _, _, rfl⟩ <;> rfl
      | respond => obtain ⟨r, d, rfl⟩ := runCommand_cases h; rfl
    · cases h; rfl
  | host a =>
    cases a with
    | present f i p => obtain ⟨-, w, b, -, -, -, -, -, rfl⟩ := present_cases h; rfl
    | read w => simp only [takeTurn, hostTurn] at h; split at h <;> cases h; rfl
    | changeInput i b =>
      simp only [takeTurn, hostTurn, changeInput] at h
      split at h
      · cases h; rfl
      · split at h <;> cases h; rfl
    | reset => simp only [takeTurn, hostTurn] at h; cases h; simp

/-! ### HOST's duties -/

/-- A script keeps the duties if its first turn does and the rest does from the state that turn leaves. -/
theorem dutiful_cons {t : Turn} {ts : List Turn} {s s' : State} (hk : t.keepsDuty s)
    (ht : takeTurn t (s.dropTurn ts) = .next s') (h : Dutiful ts s') : Dutiful (t :: ts) s := by
  refine ⟨hk, fun u hu => ?_⟩
  rw [ht] at hu
  cases hu
  exact h

/-! ### Legal states -/

/-- In a legal state the command in flight is where its instruction is to be judged. -/
theorem performing_of_inv {s : State} {c : Command} {i : Instr} (h : s.Inv) (hc : s.command = some c)
    (hd : decode c.cmd = .instr i) : s.Performing i c := by
  have := h.2.1 c hc
  simp only [CommandOk, hd] at this
  exact ⟨hc, this.1, this.2.2.2.2.2⟩

theorem allows_zero (cfg : Config) : cfg.allows 0 = true := by
  unfold Config.allows; split <;> simp

theorem errorResponse_wf (e : CoreError) : (errorResponse e).wf = true := by
  cases e <;> rfl

end Sys2Proof.Machine
end

