-- ==== Sys2Proof/Tests/Slice0.lean ====
section
/-! SUPPORT. The model's own tests: expected values are those of spec/95_test_vectors.md (the row is named) or of the
table of R79; and for every obligation with hypotheses a state and operands that meet them all. -/

namespace Sys2Proof.Machine

/-! ### WellFormed -/

theorem test_wf_policy_refused : Instr.wf (.bitrev 4 0) = false ∧ Instr.wf (.unpack1 4) = false ∧
    Instr.wf (.unpack2 4) = false ∧ Instr.wf (.unpack4 4) = false := by decide

theorem test_wf_nbits_refused : Instr.wf (.bitrev 0 256) = false := by decide

theorem test_wf_boundary_kept : Instr.wf (.bitrev 3 255) = true ∧ Instr.wf (.unpack4 3) = true ∧
    Instr.wf .pack4Strict = true := by decide

/-! ### Decoding: words written from the fields NBITS | RSV | POLICY | OP of R70 -/

theorem test_decode_bitrev : decode 0b0000000000000000 = .instr (.bitrev 0 0) := by decide
theorem test_decode_bitrev_ignored : decode 0b1111111100001000 = .instr (.bitrev 2 255) := by decide
theorem test_decode_pack1Trust : decode 0b0000000100000001 = .instr .pack1Trust := by decide
theorem test_decode_pack1Mask : decode 0b0000000100000101 = .instr .pack1Mask := by decide
theorem test_decode_pack1Strict : decode 0b0000000100001001 = .instr .pack1Strict := by decide
theorem test_decode_pack2Trust : decode 0b0000001000000001 = .instr .pack2Trust := by decide
theorem test_decode_pack2Mask : decode 0b0000001000000101 = .instr .pack2Mask := by decide
theorem test_decode_pack2Strict : decode 0b0000001000001001 = .instr .pack2Strict := by decide
theorem test_decode_pack4Trust : decode 0b0000010000000001 = .instr .pack4Trust := by decide
theorem test_decode_pack4Mask : decode 0b0000010000000101 = .instr .pack4Mask := by decide
theorem test_decode_pack4Strict : decode 0b0000010000001001 = .instr .pack4Strict := by decide
theorem test_decode_unpack1 : decode 0b0000000100000010 = .instr (.unpack1 0) := by decide
theorem test_decode_unpack2_ignored : decode 0b0000001000001110 = .instr (.unpack2 3) := by decide
theorem test_decode_unpack4_ignored : decode 0b0000010000001010 = .instr (.unpack4 2) := by decide

/-- Rows E1, E2, E3, E4, E5, E6 and B9 of section 3.3 and 2.2: InvalidCommand with the word. -/
theorem test_decode_invalid_command :
    [0x0003, 0x0313, 0x0111, 0x0182, 0x010D, 0x030D, 0x0010].all
      (fun w : CmdWord => decide (decode w = .invalidCommand w)) = true := by decide

/-- Rows E7, E8, E10, E11, E13, E15 and E16: InvalidBitWidth with NBITS. -/
theorem test_decode_invalid_width :
    decode 0x0001 = .invalidBitWidth 0 ∧ decode 0x0301 = .invalidBitWidth 3 ∧ decode 0x0801 = .invalidBitWidth 8 ∧
    decode 0xFF01 = .invalidBitWidth 255 ∧ decode 0x0002 = .invalidBitWidth 0 ∧ decode 0x0502 = .invalidBitWidth 5 ∧
    decode 0x1002 = .invalidBitWidth 16 := by decide

/-- No two rows of the opcode map have the same words (R79). -/
theorem test_rows_do_not_overlap :
    opcodeMap.Pairwise fun r r' => r.matchBits &&& (r.mask &&& r'.mask) ≠ r'.matchBits &&& (r.mask &&& r'.mask) := by
  decide

theorem test_table_word_is_decoded : decodeTableWord 16 0x0205 = some .pack2Mask ∧ decodeTableWord 16 0x030D = none ∧
    decodeTableWord 16 0x10205 = none := by decide

/-! ### Assembly and disassembly (R83 to R85) -/

theorem test_assemble : Mnemonic.assemble (.pack 2 .strict) = some 0x0209 ∧ Mnemonic.assemble (.unpack 16) = some 0x1002 ∧
    Mnemonic.assemble (.unpack 256) = none ∧ Mnemonic.assemble (Source.expand (.packCall 3)) = some 0x0301 := by decide

theorem test_disassemble_text : (disassemble 0x0301).text = "pack.3.trust" ∧ (disassemble 0x030D).text = ".invalid 0x030D" ∧
    (disassemble 0xFF08).text = "bitrev" ∧ (disassemble 0x0402).text = "unpack.4" := by decide

/-! ### One step on a command in flight -/

/-- The block right after reset with this command accepted. -/
def given (w : CmdWord) (bytes : List Byte) : State := State.reset.accept ⟨w, bytes.length, Memory.ofBytes bytes⟩

/-- STATUS, ERRINFO and OBUF of the response the next step delivers. -/
def answer (s : State) : Option (Byte × Nat × List Byte) :=
  (nextOf (step s)).bind fun t => t.response.map fun r => (r.status, r.errinfo, Memory.bytes r.obuf)

/-- Row B4. -/
theorem test_bitrev : answer (given 0x0000 [0x0F, 0xF0, 0x33, 0xCC, 0x55, 0xAA]) =
    some (0, 0, [0xF0, 0x0F, 0xCC, 0x33, 0xAA, 0x55]) := by decide

/-- Row B8. -/
theorem test_bitrev_ignores_fields : answer (given 0xFF08 [0xC0]) =
    some (0, 0, [0x03]) := by decide

/-- Row P4. -/
theorem test_pack1Trust_two_groups : answer (given 0x0101 [1, 0, 0, 0, 0, 0, 0, 0, 0, 0, 0, 0, 0, 0, 0, 1]) =
    some (0, 0, [128, 1]) := by decide

/-- Row P9. -/
theorem test_pack1Trust_bit_lost : answer (given 0x0101 [2, 0, 0, 0, 0, 0, 0, 0]) =
    some (0, 0, [0]) := by decide

/-- Row P11. -/
theorem test_pack1Mask : answer (given 0x0105 [2, 3, 0, 0, 0, 0, 0, 0]) =
    some (0, 0, [64]) := by decide

/-- Row P14. -/
theorem test_pack1Strict_lowest_index : answer (given 0x0109 [0, 0, 7, 0, 0, 0, 9, 0]) =
    some (3, 2, []) := by decide

/-- Row P33. -/
theorem test_pack1Strict_length_first : answer (given 0x0109 [5, 0, 0]) =
    some (2, 3, []) := by decide

/-- Row P17. -/
theorem test_pack2Trust : answer (given 0x0201 [3, 1, 2, 0, 0, 1, 2, 3]) =
    some (0, 0, [216, 27]) := by decide

/-- Row P20. -/
theorem test_pack2Trust_out_of_range : answer (given 0x0201 [1, 2, 0, 4]) =
    some (0, 0, [100]) := by decide

/-- Row P21. -/
theorem test_pack2Mask : answer (given 0x0205 [1, 2, 0, 4]) =
    some (0, 0, [96]) := by decide

/-- Row P22. -/
theorem test_pack2Strict : answer (given 0x0209 [1, 2, 0, 4]) =
    some (3, 3, []) := by decide

/-- Row PR1 step 1. -/
theorem test_pack2Strict_in_range : answer (given 0x0209 [3, 1, 2, 0, 0, 1, 2, 3]) =
    some (0, 0, [0xD8, 0x1B]) := by decide

/-- Row P25. -/
theorem test_pack4Trust : answer (given 0x0401 [10, 11, 12, 13]) =
    some (0, 0, [171, 205]) := by decide

/-- Row P29. -/
theorem test_pack4Trust_corrupts_field : answer (given 0x0401 [0, 16]) =
    some (0, 0, [16]) := by decide

/-- Row P31. -/
theorem test_pack4Mask : answer (given 0x0405 [31, 46]) =
    some (0, 0, [254]) := by decide

/-- Row P32. -/
theorem test_pack4Strict : answer (given 0x0409 [15, 16]) =
    some (3, 1, []) := by decide

/-- Row P27. -/
theorem test_pack4Strict_empty : answer (given 0x0409 []) =
    some (0, 0, []) := by decide

/-- Row U5. -/
theorem test_unpack1 : answer (given 0x0102 [0xA5, 0x3C]) =
    some (0, 0, [1, 0, 1, 0, 0, 1, 0, 1, 0, 0, 1, 1, 1, 1, 0, 0]) := by decide

/-- Row U10. -/
theorem test_unpack2 : answer (given 0x0202 [0x00, 0xE4, 0x27]) =
    some (0, 0, [0, 0, 0, 0, 3, 2, 1, 0, 0, 2, 1, 3]) := by decide

/-- Row U11. -/
theorem test_unpack2_ignores_policy : answer (given 0x020E [0x1B]) =
    some (0, 0, [0, 1, 2, 3]) := by decide

/-- Row U14. -/
theorem test_unpack4 : answer (given 0x0402 [0xAB, 0xCD]) =
    some (0, 0, [10, 11, 12, 13]) := by decide

/-- Row U16. -/
theorem test_unpack4_ignores_policy : answer (given 0x040A [0x5A]) =
    some (0, 0, [5, 10]) := by decide

/-- Row E6. -/
theorem test_invalid_command : answer (given 0x030D []) =
    some (4, 0x030D, []) := by decide

/-- Row E9. -/
theorem test_invalid_width : answer (given 0x0309 [9, 9, 9]) =
    some (1, 3, []) := by decide

/-! ### HOST, CORE and the state -/

/-- The block with these turns to come. -/
def turning (s : State) (ts : List Turn) : State := s.dropTurn ts

/-- PR1, both commands, the second on the first one's output (R209). -/
theorem test_program_pr1 :
    (match Sys2Proof.core.run 4 (turning State.reset
      [.host (.present (.word 0x0209) (.buffer [3, 1, 2, 0, 0, 1, 2, 3]) .separate), .core .respond,
       .host (.present (.written (.unpackCall 2)) .previous .separate), .core .respond]) with
      | .next t => t.response.map fun r => (r.status, Memory.bytes r.obuf)
      | .fault _ => none
      | .refused _ => none) = some (0, [3, 1, 2, 0, 0, 1, 2, 3]) := by decide

/-- The scan and two units ahead, in the wrong order, then the response of row P17's data under STRICT (R36, R58). -/
theorem test_work_ahead :
    (match Sys2Proof.core.run 12 (turning (given 0x0209 [3, 1, 2, 0, 0, 1, 2, 3])
      (List.replicate 9 (.core .scan) ++ [.core (.unit 1), .core (.unit 1)])) with
      | .next t => t.response.map fun r => (r.status, Memory.bytes r.obuf)
      | .fault _ => none
      | .refused _ => none) = some (0, [216, 27]) := by decide

/-- Three lanes on seven units take them in three rounds (R186). -/
theorem test_lanes_order : workOrder 3 7 = [0, 3, 6, 1, 4, 2, 5] := by decide

theorem test_reset_is_idle : (nextOf (step State.reset)).map State.busy = some false := by decide

/-! ### Witnesses: a state and operands that meet the hypotheses of each obligation -/

/-- The command of `given`. -/
def asked (w : CmdWord) (bytes : List Byte) : Command := ⟨w, bytes.length, Memory.ofBytes bytes⟩

theorem performing_given (w : CmdWord) (bytes : List Byte) (i : Instr) :
    (given w bytes).Performing i (asked w bytes) :=
  performing_fresh rfl (Memory.full_ofBytes bytes) rfl

/-- The block in the middle of `pack.2.strict` on row P17's data: all eight samples scanned, unit 1 computed. -/
def midway : State :=
  { given 0x0209 [3, 1, 2, 0, 0, 1, 2, 3] with progress := ⟨8, [1], [(1, 27)]⟩ }

theorem midway_performing : midway.Performing .pack2Strict (asked 0x0209 [3, 1, 2, 0, 0, 1, 2, 3]) := by
  refine ⟨rfl, Memory.full_ofBytes _, by decide, ?_, by decide, by decide, fun _ => by decide, rfl⟩
  intro limit hl i hi
  have hl : some 3 = some limit := hl
  cases hl
  have : ∀ i : Fin 8, ∃ b, Memory.read (asked 0x0209 [3, 1, 2, 0, 0, 1, 2, 3]).ibuf i = some b ∧ b.toNat ≤ 3 := by
    decide +kernel
  exact this ⟨i, hi⟩

theorem given_inv (w : CmdWord) (bytes : List Byte) : (given w bytes).Inv := by
  refine ⟨rfl, ?_, (fun h => by cases h), (fun r h => by cases h), (fun m h => by cases h)⟩
  intro c hc
  cases hc
  refine ⟨Memory.full_ofBytes bytes, rfl, rfl, rfl, rfl, ?_⟩
  split
  · exact progressFrom_empty _ _ _ rfl
  · rfl
  · rfl

theorem midway_inv : midway.Inv := by
  refine ⟨rfl, ?_, (fun h => by cases h), (fun r h => by cases h), (fun m h => by cases h)⟩
  intro c hc
  cases hc
  have hd : decode (0x0209 : CmdWord) = .instr .pack2Strict := by decide
  refine ⟨Memory.full_ofBytes _, rfl, rfl, rfl, rfl, ?_⟩
  dsimp only
  rw [hd]
  exact midway_performing.2.2

/-- A block that has answered `pack.4.trust` on [15, 1] (row 6 of section 1.1). -/
def answeredOnce : State := (given 0x0401 [15, 1]).answered ⟨0, 0, 1, [(0, 241)]⟩ 0

theorem exec_answeredOnce : exec .pack4Trust (given 0x0401 [15, 1]) = .next answeredOnce := by rfl

theorem witness_ResetHoldsNothing : State.reset.response = none ∧ State.reset.command = none := by decide

theorem witness_ResetAbandonsTheCommand :
    (turning State.reset [.host .reset]).turns = .host .reset :: [] ∧ (turning State.reset [.host .reset]).busy = false := by
  decide

theorem witness_AbandonedOutputIsFree :
    (turning (given 0x0201 [3, 1, 2, 0]) [.host .reset]).turns = .host .reset :: [] ∧
    (turning (given 0x0201 [3, 1, 2, 0]) [.host .reset]).busy = true ∧
    (turning (given 0x0201 [3, 1, 2, 0]) [.host .reset]).command = some (asked 0x0201 [3, 1, 2, 0]) ∧
    outputLength (asked 0x0201 [3, 1, 2, 0]) = 1 := by decide

/-- The parameters with `MAX_LEN = m`. -/
def upTo (m : Nat) : Config := { Config.default with maxLen := some m }

/-- The block right after reset, built with `MAX_LEN = m`, with these turns to come. -/
def bounded (m : Nat) (ts : List Turn) : State := { State.reset with config := upTo m, turns := ts }

theorem witness_BusyProtocol :
    (bounded 4 [.host (.present (.word 0x0201) (.buffer [3, 1, 2, 0]) .separate)]).turns =
      .host (.present (.word 0x0201) (.buffer [3, 1, 2, 0]) .separate) :: [] ∧
    (bounded 4 []).busy = false ∧ (CommandForm.word 0x0201).cmdWord = some 0x0201 ∧
    Input.bytes (bounded 4 []) (.buffer [3, 1, 2, 0]) = some [3, 1, 2, 0] ∧
    Placement.separate.overlaps 4 (outputLength (asked 0x0201 [3, 1, 2, 0])) = false ∧
    (bounded 4 []).config.allows [3, 1, 2, 0].length = true ∧
    (bounded 4 []).config.allows (outputLength (asked 0x0201 [3, 1, 2, 0])) = true ∧
    (turning (given 0 []) [.host (.present (.word 0) .previous .separate)]).turns =
      .host (.present (.word 0) .previous .separate) :: [] ∧
    (turning (given 0 []) [.host (.present (.word 0) .previous .separate)]).busy = true := by decide

theorem witness_BusyProtocol_answered : ∃ s t, runCommand s = .next t := ⟨given 0 [], _, rfl⟩

theorem witness_HostDutyViolationsStop_input :
    (turning (given 0 [7]) [.host (.changeInput 0 8)]).turns = .host (.changeInput 0 8) :: [] ∧
    (given 0 [7]).busy = true ∧ (given 0 [7]).command = some (asked 0 [7]) ∧ 0 < (asked 0 [7]).n ∧
    Memory.read (asked 0 [7]).ibuf 0 ≠ some 8 := by decide

theorem witness_HostDutyViolationsStop_read :
    (turning (given 0 [7]) [.host (.read (.output 0))]).turns = .host (.read (.output 0)) :: [] ∧
    (turning (given 0 [7]) [.host (.read (.output 0))]).busy = true := by decide

theorem witness_HostDutyViolationsStop_overlap :
    (bounded 1 [.host (.present (.word 0) (.buffer [7]) (.shared 5 5))]).turns =
      .host (.present (.word 0) (.buffer [7]) (.shared 5 5)) :: [] ∧ (bounded 1 []).busy = false ∧
    (bounded 1 []).config.allows [7].length = true ∧
    (bounded 1 []).config.allows (outputLength ⟨0, [(7 : Byte)].length, Memory.ofBytes [7]⟩) = true ∧
    5 < 5 + [7].length ∧ 5 < 5 + outputLength ⟨0, [(7 : Byte)].length, Memory.ofBytes [7]⟩ := by decide

/-- Both lengths: an input of 2 and an output of 8 against `MAX_LEN = 1`. -/
theorem witness_HostDutyViolationsStop_length :
    (bounded 1 [.host (.present (.word 0) (.buffer [7, 7]) .separate)]).turns =
      .host (.present (.word 0) (.buffer [7, 7]) .separate) :: [] ∧ (bounded 1 []).busy = false ∧
    (bounded 1 []).config.allows [7, 7].length = false ∧
    (bounded 1 []).config.allows (outputLength ⟨0x0102, [(7 : Byte)].length, Memory.ofBytes [7]⟩) = false := by decide

/-- A written command on the previous output, overlapping, and against `MAX_LEN = 0`. -/
theorem witness_HostDutyViolationsStop_written :
    (turning answeredOnce [.host (.present (.written (.unpackCall 4)) .previous (.shared 5 5))]).turns =
      .host (.present (.written (.unpackCall 4)) .previous (.shared 5 5)) :: [] ∧ answeredOnce.busy = false ∧
    (CommandForm.written (.unpackCall 4)).cmdWord = some 0x0402 ∧ Input.bytes answeredOnce .previous = some [241] ∧
    answeredOnce.config.allows [(241 : Byte)].length = true ∧
    answeredOnce.config.allows (outputLength ⟨0x0402, [(241 : Byte)].length, Memory.ofBytes [241]⟩) = true ∧
    5 < 5 + [(241 : Byte)].length ∧
    5 < 5 + outputLength ⟨0x0402, [(241 : Byte)].length, Memory.ofBytes [241]⟩ ∧
    Input.bytes { answeredOnce with config := upTo 0 } .previous = some [241] ∧
    (upTo 0).allows [(241 : Byte)].length = false := by decide

theorem witness_HostDutyViolationsStop_width :
    (turning State.reset [.host (.present (.written (.packCall 256)) .previous .separate)]).turns =
      .host (.present (.written (.packCall 256)) .previous .separate) :: [] ∧
    (turning State.reset [.host (.present (.written (.packCall 256)) .previous .separate)]).busy = false ∧
    255 < 256 := by decide

theorem witness_PreviousOutputIsTheNextInput :
    (turning answeredOnce [.host (.present (.word 0x0402) .previous .separate)]).turns =
      .host (.present (.word 0x0402) .previous .separate) :: [] ∧ answeredOnce.busy = false ∧
    answeredOnce.response = some ⟨0, 0, 1, [(0, 241)]⟩ ∧ Response.wf ⟨0, 0, 1, [(0, 241)]⟩ = true ∧
    answeredOnce.config.allows 1 = true ∧
    answeredOnce.config.allows (outputLength ⟨0x0402, 1, [(0, 241)]⟩) = true := by decide

theorem witness_PreviousOutputIsTheNextInput_none :
    (turning State.reset [.host (.present (.word 0) .previous .separate)]).turns =
      .host (.present (.word 0) .previous .separate) :: [] ∧
    (turning State.reset [.host (.present (.word 0) .previous .separate)]).busy = false ∧
    (turning State.reset [.host (.present (.word 0) .previous .separate)]).response = none := by decide

/-- The block after a reset in the middle of a command with one output byte. -/
def cutShort : State := resetEvent (given 0x0401 [15, 1])

theorem witness_HostReadsTheResponse :
    answeredOnce.response = some ⟨0, 0, 1, [(0, 241)]⟩ ∧ answeredOnce.busy = false ∧
    Response.wf ⟨0, 0, 1, [(0, 241)]⟩ = true ∧ 0 < 1 ∧
    (State.reset.answered ⟨5, 0, 0, []⟩ 0).response = some ⟨5, 0, 0, []⟩ ∧ 4 < (5 : Byte).toNat ∧
    State.reset.abandoned = none := by decide

theorem witness_HostReadsTheResponse_step :
    (turning answeredOnce [.host (.read .status)]).turns = .host (.read .status) :: [] ∧
    hostRead .status (turning answeredOnce [.host (.read .status)]) = .ok 0 ∧
    hostRead (.output 1) (turning answeredOnce [.host (.read (.output 1))]) = .error (.noOutputByte 1) :=
  ⟨rfl, rfl, rfl⟩

theorem witness_HostReadsTheResponse_abandoned :
    cutShort.abandoned = some [(0, Config.freeByte 0)] ∧ Memory.full [(0, Config.freeByte 0)] 1 = true ∧ 0 < 1 :=
  ⟨rfl, rfl, by decide⟩

theorem witness_StepRunsTheDecodedCommand :
    (given 0x0401 [15, 1]).busy = true ∧ (given 0x0401 [15, 1]).command = some (asked 0x0401 [15, 1]) ∧
    decode (asked 0x0401 [15, 1]).cmd = .instr .pack4Trust ∧ (given 0x0401 [15, 1]).turns = [] ∧
    (turning (given 0x0401 [15, 1]) [.core .respond]).turns = .core .respond :: [] ∧
    decode (asked 0x0003 []).cmd = .invalidCommand 0x0003 ∧ (given 0x0003 []).turns = [] ∧
    decode (asked 0x0301 []).cmd = .invalidBitWidth 3 ∧ (given 0x0301 []).turns = [] := by decide

theorem witness_FetchedWordIsPerformedNext : decode (BitVec.ofNat 16 0x0401) = .instr .pack4Trust := by decide

theorem witness_DecodeOfEncode : Instr.wf (.bitrev 3 255) = true ∧ Instr.wf (.unpack4 3) = true := by decide

theorem witness_EncodeOfDecode : decode 0xFF0C = .instr (.bitrev 3 255) := by decide

theorem witness_DecodeFollowsTheOpcodeMap :
    (∃ r ∈ opcodeMap, r.covers 0x0409 = true) ∧ ∀ r ∈ opcodeMap, r.covers 0x0003 = false := by decide

/-- A word of each class of R80, the policy bits of `unpack` at 11 among them. -/
theorem witness_ReservedWordsAreAnswered :
    cmdOp 0xFFFF = 3 ∧ (cmdOp 0x00F0 ≠ 3 ∧ cmdRsv 0x00F0 ≠ 0) ∧
    (cmdOp 0x010D = 1 ∧ cmdRsv 0x010D = 0 ∧ cmdPolicy 0x010D = 3) ∧
    (cmdOp 0xFF0E = 2 ∧ cmdRsv 0xFF0E = 0 ∧ cmdNbits 0xFF0E = 255) ∧
    (cmdOp 0x0301 = 1 ∧ cmdPolicy 0x0301 ≠ 3 ∧ cmdRsv 0x0301 = 0 ∧ cmdNbits 0x0301 = 3) ∧
    (given 0xFFFF []).command = some (asked 0xFFFF []) ∧ (given 0xFF0E []).command = some (asked 0xFF0E []) := by
  decide

theorem witness_IgnoredFieldsChangeNothing : 3 < 4 ∧ 255 < 256 ∧ cmdRsv 0x00F0 ≠ 0 := by decide

theorem witness_DisassembleOfAssemble : (Mnemonic.pack 255 .strict).assemble = some 0xFF09 ∧
    (Mnemonic.unpack 256).assemble = none := by decide

theorem witness_CallFormsEncode : 255 ≤ 255 := by decide

theorem witness_TableAndFormulaAgree : 41 ≤ 41 := by decide

theorem witness_FormulaNeedsFortyOneBits : 128 ≤ (128 : Byte).toNat ∧ (36 ≤ 36 ∧ 36 ≤ 40) ∧ (36 ≤ 40 ∧ 40 ≤ 40) ∧
    (32 ≤ 32 ∧ 32 ≤ 35) ∧ 32 ≤ 35 ∧ 35 ≤ 35 := by decide

theorem witness_Rev8ReversesTheBits : 7 < 8 := by decide

theorem witness_BitrevReversesEveryByte : (given 0xFF0C [1]).Performing (.bitrev 3 255) (asked 0xFF0C [1]) :=
  performing_given _ _ _

theorem witness_BitrevTwiceRestoresTheInput :
    ∃ (s s' t t' : State) (c c' : Command) (p n p' n' : Nat) (r r' : Response),
      s.Performing (.bitrev p n) c ∧ exec (.bitrev p n) s = .next t ∧ t.response = some r ∧
      s'.Performing (.bitrev p' n') c' ∧ c'.n = r.len ∧ c'.ibuf = r.obuf ∧
      exec (.bitrev p' n') s' = .next t' ∧ t'.response = some r' :=
  ⟨given 0 [1], given 0 [128], _, _, asked 0 [1], asked 0 [128], 0, 0, 0, 0, _, _,
    performing_given _ _ _, rfl, rfl, performing_given _ _ _, rfl, rfl, rfl, rfl⟩

theorem witness_Pack1PacksEightSamples :
    (given 0x0109 [1, 0, 1, 1, 0, 0, 1, 0]).Performing (packInstr .one .strict)
      (asked 0x0109 [1, 0, 1, 1, 0, 0, 1, 0]) ∧
    (asked 0x0109 [1, 0, 1, 1, 0, 0, 1, 0]).n % 8 = 0 ∧
    ∀ i, i < 8 → (asked 0x0109 [1, 0, 1, 1, 0, 0, 1, 0]).byteAt i ≤ 1 :=
  ⟨performing_given _ _ _, by decide, by decide⟩

theorem witness_Pack2PacksFourSamples :
    midway.Performing (packInstr .two .strict) (asked 0x0209 [3, 1, 2, 0, 0, 1, 2, 3]) ∧
    (asked 0x0209 [3, 1, 2, 0, 0, 1, 2, 3]).n % 4 = 0 ∧
    ∀ i, i < 8 → (asked 0x0209 [3, 1, 2, 0, 0, 1, 2, 3]).byteAt i ≤ 3 :=
  ⟨midway_performing, by decide, by decide⟩

theorem witness_Pack4PacksTwoSamples :
    (given 0x0409 [15, 1]).Performing (packInstr .four .strict) (asked 0x0409 [15, 1]) ∧
    (asked 0x0409 [15, 1]).n % 2 = 0 ∧ ∀ i, i < 2 → (asked 0x0409 [15, 1]).byteAt i ≤ 15 :=
  ⟨performing_given _ _ _, by decide, by decide⟩

/-- A group that draws: a sample out of range under TRUST with OOR_TRUST_RESULT = ANY. -/
def drawing : State :=
  { given 0x0401 [16, 0] with config := { Config.default with oorTrust := .any } }

theorem drawing_performing : drawing.Performing (packInstr .four .trust) (asked 0x0401 [16, 0]) :=
  performing_fresh rfl (Memory.full_ofBytes [16, 0]) rfl

theorem test_draw_is_free :
    exec .pack4Trust drawing = .next (drawing.answered ⟨0, 0, 1, [(0, Config.freeByte 0)]⟩ 1) := by rfl

theorem witness_PackedBitsAreTheSamplesBits :
    (given 0x0401 [15, 1]).Performing (packInstr .four .trust) (asked 0x0401 [15, 1]) ∧
    (asked 0x0401 [15, 1]).n % (8 / Width.four.nbits) = 0 ∧ (asked 0x0401 [15, 1]).inRange .four ∧
    exec (packInstr .four .trust) (given 0x0401 [15, 1]) = .next answeredOnce ∧
    answeredOnce.response = some ⟨0, 0, 1, [(0, 241)]⟩ ∧ 0 < 1 ∧ 1 < 8 / Width.four.nbits ∧ 3 < Width.four.nbits := by
  refine ⟨performing_given _ _ _, by decide, ?_, exec_answeredOnce, rfl, by decide, by decide, by decide⟩
  show ∀ i, i < 2 → _
  decide

theorem witness_PackRefusesPartialGroups :
    (given 0x0401 [1, 2, 3]).command = some (asked 0x0401 [1, 2, 3]) ∧
    (asked 0x0401 [1, 2, 3]).n % (8 / Width.four.nbits) ≠ 0 := by decide

theorem witness_StrictReportsTheFirstBadSample :
    (given 0x0409 [15, 16]).Performing (packInstr .four .strict) (asked 0x0409 [15, 16]) ∧
    (asked 0x0409 [15, 16]).n % (8 / Width.four.nbits) = 0 ∧ 1 < (asked 0x0409 [15, 16]).n ∧
    2 ^ Width.four.nbits - 1 < (asked 0x0409 [15, 16]).byteAt 1 ∧
    (∀ m, m < 1 → (asked 0x0409 [15, 16]).byteAt m ≤ 2 ^ Width.four.nbits - 1) ∧
    (given 0x0409 [1]).command = some (asked 0x0409 [1]) ∧ (asked 0x0409 [1]).n % (8 / Width.four.nbits) ≠ 0 ∧
    (Policy.trust ≠ .strict ∧ exec (packInstr .four .trust) (given 0x0401 [15, 1]) = .next answeredOnce ∧
      answeredOnce.response = some ⟨0, 0, 1, [(0, 241)]⟩) :=
  ⟨performing_given _ _ _, by decide, by decide, by decide, by decide, rfl, by decide, by decide, exec_answeredOnce, rfl⟩

theorem witness_PackOfNothing :
    (given 0x0409 []).Performing (packInstr .four .strict) (asked 0x0409 []) ∧ (asked 0x0409 []).n = 0 ∧
    (given 0x0301 []).command = some (asked 0x0301 []) ∧ (asked 0x0301 []).n = 0 ∧ 3 < 256 ∧ 0 < 3 ∧
    (asked 0x0301 []).cmd = word 3 0 1 ∧ (asked 0xFF09 []).cmd = word 255 2 1 :=
  ⟨performing_given _ _ _, rfl, rfl, rfl, by decide, by decide, by decide, by decide⟩

theorem witness_PoliciesAgreeInRange :
    (given 0x0401 [15, 1]).Performing (packInstr .four .trust) (asked 0x0401 [15, 1]) ∧
    { given 0x0401 [15, 1] with draws := 3 }.Performing (packInstr .four .mask) (asked 0x0401 [15, 1]) ∧
    (asked 0x0401 [15, 1]).inRange .four ∧
    (given 0x0405 [31, 46]).Performing (packInstr .four .mask) (asked 0x0405 [31, 46]) ∧
    (given 0x0401 [15, 14]).Performing (packInstr .four .trust) (asked 0x0401 [15, 14]) ∧
    (asked 0x0401 [15, 14]).n = (asked 0x0405 [31, 46]).n ∧
    ∀ i, i < 2 → (asked 0x0401 [15, 14]).byteAt i = (asked 0x0405 [31, 46]).byteAt i &&& (2 ^ Width.four.nbits - 1) := by
  refine ⟨performing_given _ _ _, performing_fresh rfl (Memory.full_ofBytes _) rfl, ?_, performing_given _ _ _,
    performing_given _ _ _, rfl, by decide⟩
  show ∀ i, i < 2 → _
  decide

theorem witness_UnpackExtractsTheFields :
    (given 0x0406 [0xF1]).Performing (unpackInstr .four 1) (asked 0x0406 [0xF1]) ∧ 0 < (asked 0x0406 [0xF1]).n ∧
    1 < 8 / Width.four.nbits := ⟨performing_given _ _ _, by decide, by decide⟩

theorem witness_UnpackOfPack :
    ∃ (s s' t t' : State) (c c' : Command) (n : Width) (pol : Policy) (p : Nat) (r r' : Response),
      s.Performing (packInstr n pol) c ∧ c.n % (8 / n.nbits) = 0 ∧ c.inRange n ∧
      exec (packInstr n pol) s = .next t ∧ t.response = some r ∧
      s'.Performing (unpackInstr n p) c' ∧ c'.n = r.len ∧ c'.ibuf = r.obuf ∧
      exec (unpackInstr n p) s' = .next t' ∧ t'.response = some r' := by
  refine ⟨given 0x0401 [15, 1], given 0x0402 [241], answeredOnce, _, asked 0x0401 [15, 1], asked 0x0402 [241], .four,
    .trust, 0, _, _, performing_given _ _ _, by decide, ?_, exec_answeredOnce, rfl, performing_given _ _ _, rfl, rfl, rfl,
    rfl⟩
  show ∀ i, i < 2 → _
  decide

theorem witness_PackOfUnpack :
    ∃ (s s' t t' : State) (c c' : Command) (n : Width) (pol : Policy) (p : Nat) (r r' : Response),
      s.Performing (unpackInstr n p) c ∧ exec (unpackInstr n p) s = .next t ∧ t.response = some r ∧
      s'.Performing (packInstr n pol) c' ∧ c'.n = r.len ∧ c'.ibuf = r.obuf ∧
      exec (packInstr n pol) s' = .next t' ∧ t'.response = some r' :=
  ⟨given 0x0402 [241], given 0x0401 [15, 1], _, _, asked 0x0402 [241], asked 0x0401 [15, 1], .four, .trust, 0, _, _,
    performing_given _ _ _, rfl, rfl, performing_given _ _ _, rfl, rfl, exec_answeredOnce, rfl⟩

theorem witness_LengthLaws :
    (given 0x0401 [15, 1]).Performing (packInstr .four .trust) (asked 0x0401 [15, 1]) ∧
    exec (packInstr .four .trust) (given 0x0401 [15, 1]) = .next answeredOnce ∧
    answeredOnce.response = some ⟨0, 0, 1, [(0, 241)]⟩ ∧
    (given 0x0402 [0xF1]).Performing (unpackInstr .four 0) (asked 0x0402 [0xF1]) ∧
    (∃ t r, exec (unpackInstr .four 0) (given 0x0402 [0xF1]) = .next t ∧ t.response = some r ∧ r.status = 0) :=
  ⟨performing_given _ _ _, exec_answeredOnce, rfl, performing_given _ _ _, _, _, rfl, rfl, rfl⟩

theorem witness_EveryCommandHasItsStatus :
    midway.Inv ∧ midway.busy = true ∧ midway.command = some (asked 0x0209 [3, 1, 2, 0, 0, 1, 2, 3]) :=
  ⟨midway_inv, rfl, rfl⟩

/-- Each of the five outcomes has a command in a legal state. -/
theorem witness_EveryCommandHasItsStatus_cases :
    (∀ w bytes, (given w bytes).Inv ∧ (given w bytes).busy = true ∧ (given w bytes).command = some (asked w bytes)) ∧
    badCommand 0x030D ∧ badWidth 0x0309 ∧ badLength 0x0109 3 ∧ badSample (asked 0x0109 [0, 0, 7, 0, 0, 0, 9, 0]) 2 := by
  refine ⟨fun w bytes => ⟨given_inv w bytes, rfl, rfl⟩, ?_, ?_, ?_, ?_⟩ <;>
    simp only [badSample, badLength, badWidth, badCommand] <;> decide

theorem witness_ErrorResponsesAreEmpty :
    ∃ (s t : State) (r : Response), runCommand s = .next t ∧ t.response = some r ∧ r.status ≠ 0 :=
  ⟨given 0x0409 [15, 16], _, _, rfl, rfl, by decide⟩

theorem witness_OnlyTheseErrors :
    (∃ t r, exec (.bitrev 0 0) (given 0 [1]) = .next t ∧ t.response = some r) ∧
    (∃ t r, exec (unpackInstr .four 0) (given 0x0402 [241]) = .next t ∧ t.response = some r) ∧
    (Policy.mask ≠ .strict ∧
      ∃ t r, exec (packInstr .four .mask) (given 0x0405 [1]) = .next t ∧ t.response = some r ∧ r.status = 2) ∧
    (∃ t r, exec (packInstr .four .strict) (given 0x0409 [15, 16]) = .next t ∧ t.response = some r ∧ r.status = 3) :=
  ⟨⟨_, _, rfl, rfl⟩, ⟨_, _, rfl, rfl⟩, ⟨by decide, _, _, rfl, rfl, rfl⟩, ⟨_, _, rfl, rfl, rfl⟩⟩

/-- A fresh block, and one whose last command was cut short by reset: its counter has moved on. -/
theorem witness_NothingCarriesOver :
    let ts : List Turn := [.host (.present (.word 0x0401) (.buffer [15, 1]) .separate), .core .respond]
    (turning State.reset ts).busy = false ∧ (turning cutShort ts).busy = false ∧
    (turning State.reset ts).config = (turning cutShort ts).config ∧
    (turning State.reset ts).config.oorTrust = .formula8 ∧
    (turning State.reset ts).draws ≠ (turning cutShort ts).draws ∧
    ∃ t, Sys2Proof.core.run 2 (turning State.reset ts) = .next t :=
  ⟨rfl, rfl, rfl, rfl, by decide, _, rfl⟩

/-- The other two ways under ANY: one counter, and a command that does not draw. -/
theorem witness_NothingCarriesOver_any :
    (turning { State.reset with config := drawing.config } []).draws = State.reset.draws ∧
    (CommandForm.word 0x0401).cmdWord = some 0x0401 ∧ decode 0x0401 = .instr (packInstr .four .trust) ∧
    (⟨0x0401, [(15 : Byte), 1].length, Memory.ofBytes [15, 1]⟩ : Command).inRange .four := by
  refine ⟨rfl, rfl, by decide, ?_⟩
  show ∀ i, i < 2 → _
  decide

/-- The three ways the open draw is out of the question: FORMULA8, one counter, samples in range; and an illegal
word. -/
theorem witness_ResponseIsAFunctionOfTheCommand :
    midway.command = some (asked 0x0209 [3, 1, 2, 0, 0, 1, 2, 3]) ∧
    (given 0x0209 [3, 1, 2, 0, 0, 1, 2, 3]).command = some (asked 0x0209 [3, 1, 2, 0, 0, 1, 2, 3]) ∧
    midway.Performing .pack2Strict (asked 0x0209 [3, 1, 2, 0, 0, 1, 2, 3]) ∧
    (given 0x0209 [3, 1, 2, 0, 0, 1, 2, 3]).Performing .pack2Strict (asked 0x0209 [3, 1, 2, 0, 0, 1, 2, 3]) ∧
    midway.config.oorTrust = (given 0x0209 [3, 1, 2, 0, 0, 1, 2, 3]).config.oorTrust ∧
    midway.config.oorTrust = .formula8 ∧
    drawing.Performing .pack4Trust (asked 0x0401 [16, 0]) ∧
    { drawing with hostSaw := some 0 }.Performing .pack4Trust (asked 0x0401 [16, 0]) ∧
    drawing.draws = { drawing with hostSaw := some 0 }.draws ∧
    (∀ n, decode (asked 0x0401 [15, 1]).cmd = .instr (packInstr n .trust) → (asked 0x0401 [15, 1]).inRange n) ∧
    ∀ i, decode (asked 0x0003 []).cmd ≠ .instr i := by
  refine ⟨rfl, rfl, midway_performing, performing_given _ _ _, rfl, rfl, drawing_performing,
    performing_fresh rfl (Memory.full_ofBytes [16, 0]) rfl, rfl, fun n hn => ?_, fun i => ?_⟩
  · have hd : decode (asked 0x0401 [15, 1]).cmd = .instr .pack4Trust := by decide
    rw [hd] at hn
    cases n <;> simp [packInstr] at hn
    show ∀ i, i < 2 → _
    decide
  · have hd : decode (asked 0x0003 []).cmd = .invalidCommand 0x0003 := by decide
    rw [hd]; simp

theorem witness_EveryInstructionCompletes :
    midway.Performing .pack2Strict (asked 0x0209 [3, 1, 2, 0, 0, 1, 2, 3]) ∧
    ∀ i, (given (encode i) [1]).Performing i (asked (encode i) [1]) :=
  ⟨midway_performing, fun _ => performing_given _ _ _⟩

theorem witness_EachOutputByteIsWrittenOnce :
    (asked 0x0409 [15, 16]).wf = true ∧
    ∃ t r, exec .pack4Strict (given 0x0409 [15, 16]) = .next t ∧ t.response = some r ∧ r.status ≠ 0 :=
  ⟨Memory.full_ofBytes _, _, _, rfl, rfl, by decide⟩

theorem witness_OutputBytesDependOnTheirSlice :
    (∃ t t' r r', exec (.bitrev 0 0) (given 0 [1, 2]) = .next t ∧ exec (.bitrev 0 0) (given 0 [1, 3]) = .next t' ∧
      t.response = some r ∧ t'.response = some r' ∧ r.status = 0 ∧ r'.status = 0 ∧
      (asked 0 [1, 2]).byteAt 0 = (asked 0 [1, 3]).byteAt 0) ∧
    (∃ t t' r r', exec (packInstr .four .trust) (given 0x0401 [1, 2, 3, 4]) = .next t ∧
      exec (packInstr .four .trust) (given 0x0401 [1, 2, 3, 5]) = .next t' ∧
      t.response = some r ∧ t'.response = some r' ∧ r.status = 0 ∧ r'.status = 0 ∧
      ∀ k, k < 2 → (asked 0x0401 [1, 2, 3, 4]).byteAt (0 * (8 / Width.four.nbits) + k) =
        (asked 0x0401 [1, 2, 3, 5]).byteAt (0 * (8 / Width.four.nbits) + k)) ∧
    (∃ t t' r r', exec (unpackInstr .four 0) (given 0x0402 [1, 2]) = .next t ∧
      exec (unpackInstr .four 0) (given 0x0402 [1, 3]) = .next t' ∧
      t.response = some r ∧ t'.response = some r' ∧ r.status = 0 ∧ r'.status = 0 ∧
      (asked 0x0402 [1, 2]).byteAt (1 / (8 / Width.four.nbits)) =
        (asked 0x0402 [1, 3]).byteAt (1 / (8 / Width.four.nbits))) :=
  ⟨⟨_, _, _, _, rfl, rfl, rfl, rfl, rfl, rfl, by decide⟩, ⟨_, _, _, _, rfl, rfl, rfl, rfl, rfl, rfl, by decide⟩,
    ⟨_, _, _, _, rfl, rfl, rfl, rfl, rfl, rfl, by decide⟩⟩

/-- The three ways the open draw is out of the question, on `pack.4.trust`. -/
theorem witness_OutputBytesDependOnTheirSlice_draw :
    (given 0x0401 [1, 2, 3, 4]).Performing (packInstr .four .trust) (asked 0x0401 [1, 2, 3, 4]) ∧
    (given 0x0401 [1, 2, 3, 5]).Performing (packInstr .four .trust) (asked 0x0401 [1, 2, 3, 5]) ∧
    (asked 0x0401 [1, 2, 3, 5]).n = (asked 0x0401 [1, 2, 3, 4]).n ∧
    (given 0x0401 [1, 2, 3, 4]).config.oorTrust = (given 0x0401 [1, 2, 3, 5]).config.oorTrust ∧
    (given 0x0401 [1, 2, 3, 4]).config.oorTrust = .formula8 ∧
    (given 0x0401 [1, 2, 3, 4]).draws = (given 0x0401 [1, 2, 3, 5]).draws ∧
    (asked 0x0401 [1, 2, 3, 4]).inRange .four := by
  refine ⟨performing_given _ _ _, performing_given _ _ _, rfl, rfl, rfl, rfl, ?_⟩
  show ∀ i, i < 4 → _
  decide

theorem witness_HiddenWorkIsInvisible :
    ∃ t, CoreTurn.unit 0 ≠ .respond ∧ coreTurn (.unit 0) midway = .next t ∧ t.progress ≠ midway.progress :=
  ⟨_, by decide, rfl, by decide⟩

theorem witness_InstructionFrame :
    exec .pack4Trust (given 0x0401 [15, 1]) = .next answeredOnce ∧
    (given 0x0401 [15, 1]).config.oorTrust = .formula8 := ⟨exec_answeredOnce, rfl⟩

theorem witness_InputIsNeverWritten :
    (∃ s t : State, step s = .next t ∧ s.busy = true ∧ t.busy = true) ∧ ([7] : List Byte)[0]? = some 7 :=
  ⟨⟨turning midway [.core (.unit 0)], _, rfl, rfl, rfl⟩, rfl⟩

theorem witness_ParametersNeverChange : ∃ s t : State, step s = .next t := ⟨midway, _, rfl⟩

theorem witness_StepKeepsTheInvariant :
    ∃ s t : State, s.Inv ∧ step s = .next t ∧ t.busy = true :=
  ⟨turning midway [.core (.unit 0)], _, midway_inv, rfl, rfl⟩

/-- HOST waits for the response, reads every field of it, stores where no command is in flight, presents the previous
output in written form, leaves IBUF as it is, and resets the block. -/
theorem witness_DutifulHostNeverStops :
    let ts : List Turn := [.core (.unit 0), .host (.read .busy), .core .respond, .host (.read .status),
      .host (.read .errinfo), .host (.read .length), .host (.read (.output 0)), .host (.changeInput 0 9),
      .host (.present (.written (.unpackCall 4)) .previous .separate), .host (.changeInput 0 241), .host .reset]
    (turning (given 0x0401 [15, 1]) ts).Inv ∧ Dutiful ts (turning (given 0x0401 [15, 1]) ts) := by
  refine ⟨given_inv _ _, ?_⟩
  refine dutiful_cons trivial rfl (dutiful_cons trivial rfl (dutiful_cons trivial rfl (dutiful_cons rfl rfl
    (dutiful_cons rfl rfl (dutiful_cons rfl rfl (dutiful_cons ⟨rfl, _, rfl, by decide⟩ rfl (dutiful_cons ?_ rfl
      (dutiful_cons ⟨rfl, _, _, rfl, rfl, rfl, rfl, rfl⟩ rfl (dutiful_cons ?_ rfl
        (dutiful_cons trivial rfl trivial))))))))))
  · intro c hb
    cases hb
  · intro c _ hc _
    cases hc
    rfl

theorem witness_AcceptedCommandIsAnswered :
    (given 0x0401 [15, 1]).Inv ∧ (given 0x0401 [15, 1]).busy = true ∧
    Dutiful (given 0x0401 [15, 1]).turns (given 0x0401 [15, 1]) ∧
    .host .reset ∉ (given 0x0401 [15, 1]).turns := ⟨given_inv _ _, rfl, trivial, by decide⟩

end Sys2Proof.Machine
end

section
/-! SUPPORT. Everything a step can do, said once, and what it leaves of the command in flight (20_memory.md R51). -/

namespace Sys2Proof.Machine

/-! ### Turns -/

/-- Everything a turn of CORE can do: go on with its hidden work, or answer the command in flight. -/
theorem coreTurn_cases {ct : CoreTurn} {s t : State} (h : coreTurn ct s = .next t) :
    (∃ p, t = { s with progress := p }) ∨ (s.busy = true ∧ ∃ r d, t = s.answered r d) := by
  unfold coreTurn at h
  split at h
  · cases ct with
    | scan => obtain rfl | ⟨_, _, _, _, _, _, _, _, _, _, rfl⟩ := scanOne_cases h <;> exact .inl ⟨_, rfl⟩
    | unit u => obtain rfl | ⟨_, _, _, _, _, _, _, _, rfl⟩ := computeUnit_cases h <;> exact .inl ⟨_, rfl⟩
    | respond => exact .inr ⟨‹_›, runCommand_cases h⟩
  · cases h; exact .inl ⟨_, rfl⟩

/-- A store of HOST that has a step changes nothing the block holds (R205). -/
theorem changeInput_eq {i : Nat} {b : Byte} {s t : State} (h : changeInput i b s = .next t) : t = s := by
  unfold changeInput at h
  split at h
  · cases h; rfl
  · split at h <;> cases h; rfl

/-- Everything a turn of HOST can do: have a command accepted by an idle block, see a value, store where the block
holds nothing that changes, or raise reset. -/
theorem hostTurn_cases {a : HostAction} {s t : State} (h : hostTurn a s = .next t) :
    (s.busy = false ∧ ∃ c, t = s.accept c) ∨ (∃ v, t = { s with hostSaw := v }) ∨ t = resetEvent s := by
  cases a with
  | present f i p =>
    obtain ⟨hb, w, bytes, -, -, -, -, -, rfl⟩ := present_cases h
    exact .inl ⟨hb, _, rfl⟩
  | read what =>
    simp only [hostTurn] at h
    split at h <;> cases h
    exact .inr (.inl ⟨_, rfl⟩)
  | changeInput i b =>
    obtain rfl := changeInput_eq h
    exact .inr (.inl ⟨_, rfl⟩)
  | reset => cases h; exact .inr (.inr rfl)

/-! ### Steps -/

/-- Where no turn is listed, there is none to take off the list. -/
theorem dropTurn_nil {s : State} (h : s.turns = []) : s.dropTurn [] = s := by rw [← h]; rfl

/-- Everything a step can do, beside taking its turn off the list: have a command accepted by an idle block, answer
the command in flight, reset the block, or change CORE's progress or what HOST has read alone. -/
theorem step_cases {s t : State} (h : step s = .next t) :
    let u := s.dropTurn s.turns.tail
    (s.busy = false ∧ ∃ c, t = u.accept c) ∨ (s.busy = true ∧ ∃ r d, t = u.answered r d) ∨ t = resetEvent u ∨
      ∃ p v, t = { u with progress := p, hostSaw := v } := by
  intro u
  cases hts : s.turns with
  | nil =>
    have hu : u = s := by simp only [u, hts, List.tail_nil, dropTurn_nil hts]
    rw [step_nil hts, noTurn] at h
    rw [hu]
    split at h
    · exact .inr (.inl ⟨‹_›, runCommand_cases h⟩)
    · cases h; exact .inr (.inr (.inr ⟨_, _, rfl⟩))
  | cons tn rest =>
    have hu : u = s.dropTurn rest := by simp only [u, hts, List.tail_cons]
    rw [step_cons hts, ← hu] at h
    cases tn with
    | core ct =>
      obtain ⟨p, rfl⟩ | ⟨hb, r, d, rfl⟩ := coreTurn_cases h
      · exact .inr (.inr (.inr ⟨_, _, rfl⟩))
      · exact .inr (.inl ⟨hb, r, d, rfl⟩)
    | host a =>
      obtain ⟨hb, c, rfl⟩ | ⟨v, rfl⟩ | rfl := hostTurn_cases h
      · exact .inl ⟨hb, c, rfl⟩
      · exact .inr (.inr (.inr ⟨_, _, rfl⟩))
      · exact .inr (.inr (.inl rfl))

/-- A step that leaves the block busy leaves the command in flight as it is: only an answer or a reset ends it, and
only an idle block accepts another. -/
theorem step_command_of_busy {s t : State} (h : step s = .next t) (hs : s.busy = true) (ht : t.busy = true) :
    t.command = s.command := by
  obtain ⟨hidle, -⟩ | ⟨-, r, d, rfl⟩ | rfl | ⟨p, v, rfl⟩ := step_cases h
  · simp [hs] at hidle
  · simp [State.answered] at ht
  · simp at ht
  · rfl

/-! ### Reading IBUF -/

/-- Reading the input of a presented command gives the byte HOST supplied at that index. -/
theorem memRead_ofBytes (w : CmdWord) {bytes : List Byte} {i : Nat} {b : Byte} (h : bytes[i]? = some b) :
    memRead ⟨w, bytes.length, Memory.ofBytes bytes⟩ i = .ok b := by
  obtain ⟨hi, -⟩ := List.getElem?_eq_some_iff.1 h
  simp only [memRead, hi, if_true, Memory.read_ofBytes, h]

/-- Settles O46: of the four things a step can do, only CORE's hidden work and HOST's reads keep a busy block busy, and
neither touches the command; reading IBUF gives the byte its buffer was made of. -/
theorem inputIsNeverWritten : Obligations.InputIsNeverWritten :=
  ⟨fun _ _ h hs ht => step_command_of_busy h hs ht, fun w _ _ _ h => memRead_ofBytes w h⟩

end Sys2Proof.Machine
end

section
/-! SUPPORT. The opcode map of 30_encoding.md R79 read field by field, decoding held to it, the words outside it
(R80), and the fields an operation ignores (R76). -/

namespace Sys2Proof.Machine

/-! ### Matching a row, field by field -/

/-- The four fields of a word, the highest first (R70). -/
def fieldsOf (w : CmdWord) : Nat × Nat × Nat × Nat := (cmdNbits w, cmdRsv w, cmdPolicy w, cmdOp w)

/-- Two words are the same when their fields are. -/
theorem fieldsOf_inj {w w' : CmdWord} : fieldsOf w = fieldsOf w' ↔ w = w' := by
  refine ⟨fun h => ?_, congrArg fieldsOf⟩
  simp only [fieldsOf, Prod.mk.injEq] at h
  obtain ⟨hn, hr, hp, ho⟩ := h
  exact BitVec.eq_of_toNat_eq (by rw [(fields_eq w).1, (fields_eq w').1, hn, hr, hp, ho])

/-- Masking a number masks each of its fields. -/
theorem bits_and (v m hi lo : Nat) : bits (v &&& m) hi lo = bits v hi lo &&& bits m hi lo := by
  simp only [bits, Nat.and_div_two_pow, Nat.and_mod_two_pow]

theorem fieldsOf_and (w m : CmdWord) :
    fieldsOf (w &&& m) =
      (cmdNbits w &&& cmdNbits m, cmdRsv w &&& cmdRsv m, cmdPolicy w &&& cmdPolicy m, cmdOp w &&& cmdOp m) := by
  simp only [fieldsOf, cmdNbits, cmdRsv, cmdPolicy, cmdOp, BitVec.toNat_and, bits_and]

/-- A word matches a row when each of its fields does: `(CMD & mask) == match` (R79). -/
theorem OpRow.covers_iff {r : OpRow} {w : CmdWord} {nm rm pm om n v p o : Nat}
    (hmask : fieldsOf r.mask = (nm, rm, pm, om)) (hmatch : fieldsOf r.matchBits = (n, v, p, o)) :
    r.covers w = true ↔
      cmdNbits w &&& nm = n ∧ cmdRsv w &&& rm = v ∧ cmdPolicy w &&& pm = p ∧ cmdOp w &&& om = o := by
  simp only [fieldsOf, Prod.mk.injEq] at hmask
  obtain ⟨rfl, rfl, rfl, rfl⟩ := hmask
  rw [OpRow.covers, beq_iff_eq, ← fieldsOf_inj, hmatch, fieldsOf_and]
  simp only [Prod.mk.injEq]

/-- A field under a mask of all its bits is the field itself. -/
theorem fields_and_ones (w : CmdWord) :
    cmdNbits w &&& 255 = cmdNbits w ∧ cmdRsv w &&& 15 = cmdRsv w ∧
      cmdPolicy w &&& 3 = cmdPolicy w ∧ cmdOp w &&& 3 = cmdOp w := by
  obtain ⟨-, hn, hr, hp, ho⟩ := fields_eq w
  exact ⟨Nat.and_two_pow_sub_one_of_lt_two_pow (n := 8) hn, Nat.and_two_pow_sub_one_of_lt_two_pow (n := 4) hr,
    Nat.and_two_pow_sub_one_of_lt_two_pow (n := 2) hp, Nat.and_two_pow_sub_one_of_lt_two_pow (n := 2) ho⟩

/-! ### The three shapes of row -/

/-- The row of `bitrev` asks for OP 00 and no reserved bit, whatever the fields it ignores. -/
theorem covers_row_bitrev {p n : Nat} {w : CmdWord} :
    (Instr.row (.bitrev p n)).covers w = true ↔ cmdRsv w = 0 ∧ cmdOp w = 0 := by
  have hrow : Instr.row (.bitrev p n) = Instr.row (.bitrev 0 0) := rfl
  have hmask : fieldsOf (Instr.row (.bitrev 0 0)).mask = (0, 15, 0, 3) := by decide
  have hmatch : fieldsOf (Instr.row (.bitrev 0 0)).matchBits = (0, 0, 0, 0) := by decide
  rw [hrow, OpRow.covers_iff hmask hmatch]
  simp [fields_and_ones]

/-- A row of `pack` asks for all four fields. -/
theorem covers_row_packInstr {n : Width} {pol : Policy} {w : CmdWord} :
    (packInstr n pol).row.covers w = true ↔
      cmdNbits w = n.nbits ∧ cmdRsv w = 0 ∧ cmdPolicy w = policyCode pol ∧ cmdOp w = 1 := by
  have hmask : fieldsOf (packInstr n pol).row.mask = (255, 15, 3, 3) := by cases n <;> cases pol <;> decide
  have hmatch : fieldsOf (packInstr n pol).row.matchBits = (n.nbits, 0, policyCode pol, 1) := by
    cases n <;> cases pol <;> decide
  rw [OpRow.covers_iff hmask hmatch]
  simp only [fields_and_ones]

/-- A row of `unpack` asks for all fields but the ignored POLICY. -/
theorem covers_row_unpackInstr {n : Width} {p : Nat} {w : CmdWord} :
    (unpackInstr n p).row.covers w = true ↔ cmdNbits w = n.nbits ∧ cmdRsv w = 0 ∧ cmdOp w = 2 := by
  have hrow : (unpackInstr n p).row = (unpackInstr n 0).row := by cases n <;> rfl
  have hmask : fieldsOf (unpackInstr n 0).row.mask = (255, 15, 0, 3) := by cases n <;> decide
  have hmatch : fieldsOf (unpackInstr n 0).row.matchBits = (n.nbits, 0, 0, 2) := by cases n <;> decide
  rw [hrow, OpRow.covers_iff hmask hmatch]
  simp [fields_and_ones]

/-- The rows of the opcode map are the rows of the instructions. -/
theorem mem_opcodeMap {r : OpRow} : r ∈ opcodeMap ↔ ∃ i : Instr, i.row = r := by
  constructor
  · intro h
    obtain ⟨i, -, hi⟩ : ∃ i ∈ [Instr.bitrev 0 0, .pack1Trust, .pack1Mask, .pack1Strict, .pack2Trust, .pack2Mask,
        .pack2Strict, .pack4Trust, .pack4Mask, .pack4Strict, .unpack1 0, .unpack2 0, .unpack4 0], i.row = r :=
      List.mem_map.1 h
    exact ⟨i, hi⟩
  · rintro ⟨i, rfl⟩
    cases i <;> simp [opcodeMap, Instr.row]

/-! ### Decoding a word by its fields -/

@[simp] theorem widthOf_nbits (n : Width) : widthOf n.nbits = some n := by cases n <;> rfl

@[simp] theorem policyOf_policyCode (pol : Policy) : policyOf (policyCode pol) = some pol := by cases pol <;> rfl

/-- A legal policy's code (R72). -/
theorem policyOf_some {c : Nat} {pol : Policy} (h : policyOf c = some pol) : c = policyCode pol := by
  unfold policyOf at h
  split_ifs at h <;> cases h <;> assumption

theorem decode_bitrev {w : CmdWord} (hr : cmdRsv w = 0) (ho : cmdOp w = 0) :
    decode w = .instr (.bitrev (cmdPolicy w) (cmdNbits w)) := by
  simp [decode, hr, ho]

theorem decode_pack {w : CmdWord} {n : Width} {pol : Policy} (hn : cmdNbits w = n.nbits) (hr : cmdRsv w = 0)
    (hp : cmdPolicy w = policyCode pol) (ho : cmdOp w = 1) : decode w = .instr (packInstr n pol) := by
  simp [decode, hn, hr, hp, ho]

theorem decode_unpack {w : CmdWord} {n : Width} (hn : cmdNbits w = n.nbits) (hr : cmdRsv w = 0)
    (ho : cmdOp w = 2) : decode w = .instr (unpackInstr n (cmdPolicy w)) := by
  simp [decode, hn, hr, ho]

/-- Only a word with no reserved bit set is a command (R73). -/
theorem cmdRsv_of_not_badCommand {w : CmdWord} (h : ¬ badCommand w) : cmdRsv w = 0 := by
  by_contra hr
  exact h (.inr (.inl hr))

/-- A word matches an instruction's row exactly when it decodes to an instruction of that row. -/
theorem covers_row_iff {i : Instr} {w : CmdWord} :
    i.row.covers w = true ↔ ∃ i', decode w = .instr i' ∧ i'.row = i.row := by
  constructor
  · intro h
    obtain ⟨p, n, rfl⟩ | ⟨n, pol, rfl⟩ | ⟨n, p, rfl⟩ := instr_cases i
    · obtain ⟨hr, ho⟩ := covers_row_bitrev.1 h
      exact ⟨_, decode_bitrev hr ho, rfl⟩
    · obtain ⟨hn, hr, hp, ho⟩ := covers_row_packInstr.1 h
      exact ⟨_, decode_pack hn hr hp ho, rfl⟩
    · obtain ⟨hn, hr, ho⟩ := covers_row_unpackInstr.1 h
      exact ⟨_, decode_unpack hn hr ho, by cases n <;> rfl⟩
  · rintro ⟨i', hd, hrow⟩
    rw [← hrow]
    obtain ⟨-, h⟩ | ⟨-, h⟩ | ⟨hb, -, ho, h⟩ | ⟨hb, -, ho, n, pol, hn, hp, h⟩ | ⟨hb, -, ho, n, hn, h⟩ :=
      decode_cases w <;> rw [h] at hd <;> cases hd
    · exact covers_row_bitrev.2 ⟨cmdRsv_of_not_badCommand hb, ho⟩
    · exact covers_row_packInstr.2 ⟨hn, cmdRsv_of_not_badCommand hb, policyOf_some hp, ho⟩
    · exact covers_row_unpackInstr.2 ⟨hn, cmdRsv_of_not_badCommand hb, ho⟩

/-- A word matches no row exactly when it decodes to no instruction. -/
theorem covers_none_iff {w : CmdWord} :
    (∀ r ∈ opcodeMap, r.covers w = false) ↔ ∀ i, decode w ≠ .instr i := by
  simp only [← Bool.not_eq_true, mem_opcodeMap, forall_exists_index, forall_apply_eq_imp_iff, covers_row_iff]
  exact ⟨fun h i hd => h i ⟨i, hd, rfl⟩, fun h i ⟨i', hd, _⟩ => h i' hd⟩

/-- Settles O12: every row is some instruction's, matching it is decoding to an instruction of it, and decoding has
one answer. -/
theorem decodeFollowsTheOpcodeMap : Obligations.DecodeFollowsTheOpcodeMap := by
  intro w
  have hcov : ∀ r ∈ opcodeMap, r.covers w = true ↔ ∃ i, decode w = .instr i ∧ i.row = r := by
    intro r hr
    obtain ⟨i, rfl⟩ := mem_opcodeMap.1 hr
    exact covers_row_iff
  refine ⟨hcov, fun r hr r' hr' h h' => ?_, covers_none_iff.1⟩
  obtain ⟨i, hi, rfl⟩ := (hcov r hr).1 h
  obtain ⟨i', hi', rfl⟩ := (hcov r' hr').1 h'
  cases hi.symm.trans hi'
  rfl

/-! ### Words outside the opcode map -/

/-- A word matches no row exactly when it is in a class that raises an error (R80). -/
theorem covers_none_iff_bad {w : CmdWord} :
    (∀ r ∈ opcodeMap, r.covers w = false) ↔ badCommand w ∨ badWidth w := by
  rw [covers_none_iff]
  obtain ⟨hb, h⟩ | ⟨hb, h⟩ | ⟨hb, hw, -, h⟩ | ⟨hb, hw, -, n, pol, -, -, h⟩ | ⟨hb, hw, -, n, -, h⟩ :=
    decode_cases w <;> simp [*]

/-- The classes of R80 that raise InvalidCommand, each apart from the ones tested before it (R75). -/
theorem badCommand_iff {w : CmdWord} :
    badCommand w ↔
      cmdOp w = 3 ∨ (cmdOp w ≠ 3 ∧ cmdRsv w ≠ 0) ∨ (cmdOp w = 1 ∧ cmdRsv w = 0 ∧ cmdPolicy w = 3) := by
  unfold badCommand
  omega

/-- The class of R80 that raises InvalidBitWidth, by the fields. -/
theorem badWidth_iff {w : CmdWord} :
    badWidth w ↔ (cmdOp w = 1 ∧ cmdPolicy w ≠ 3 ∨ cmdOp w = 2) ∧ cmdRsv w = 0 ∧
      cmdNbits w ≠ 1 ∧ cmdNbits w ≠ 2 ∧ cmdNbits w ≠ 4 := by
  unfold badWidth badCommand
  omega

/-- The words of the reserved operation are every fourth one, 16384 of them. -/
theorem cmdOp_eq_three_iff {w : CmdWord} :
    cmdOp w = 3 ↔ ∃ k, k < 16384 ∧ w = BitVec.ofNat 16 (4 * k + 3) := by
  have hop : cmdOp w = w.toNat % 4 := by simp [cmdOp, bits]
  rw [hop]
  constructor
  · intro h
    exact ⟨w.toNat / 4, by omega, BitVec.eq_of_toNat_eq (by rw [BitVec.toNat_ofNat]; omega)⟩
  · rintro ⟨k, hk, rfl⟩
    rw [BitVec.toNat_ofNat]
    omega

theorem decode_badWidth {w : CmdWord} (h : badWidth w) : decode w = .invalidBitWidth (cmdNbits w) := by
  obtain ⟨hb, -⟩ | ⟨-, hd⟩ | ⟨-, hw, -⟩ | ⟨-, hw, -⟩ | ⟨-, hw, -⟩ := decode_cases w
  · exact absurd hb h.1
  · exact hd
  all_goals exact absurd h hw

theorem runCommand_badCommand {s : State} {c : Command} (hc : s.command = some c) (h : badCommand c.cmd) :
    runCommand s = .next (s.answered ⟨4, c.cmd.toNat, 0, []⟩ 0) := by
  simp only [runCommand, hc, decode_bad h]
  rfl

theorem runCommand_badWidth {s : State} {c : Command} (hc : s.command = some c) (h : badWidth c.cmd) :
    runCommand s = .next (s.answered ⟨1, cmdNbits c.cmd, 0, []⟩ 0) := by
  simp only [runCommand, hc, decode_badWidth h]
  rfl

/-- Settles O13: the words that match no row are those that raise InvalidCommand, in the first three classes, and those
that raise InvalidBitWidth, in the fourth. -/
theorem reservedWordsAreAnswered : Obligations.ReservedWordsAreAnswered := by
  refine ⟨fun w => ?_, fun w => ?_, fun w => cmdOp_eq_three_iff,
    fun s c hc h => runCommand_badCommand hc (badCommand_iff.2 h),
    fun s c hc h => runCommand_badWidth hc (badWidth_iff.2 h)⟩
  · rw [covers_none_iff_bad, badCommand_iff, badWidth_iff, or_assoc, or_assoc]
  · omega

/-! ### Ignored fields -/

theorem memReadRun_cmd (c : Command) (w : CmdWord) (i k : Nat) :
    memReadRun { c with cmd := w } i k = memReadRun c i k := by
  induction k generalizing i with
  | zero => rfl
  | succ k ih =>
    have hr : memRead { c with cmd := w } = memRead c := rfl
    simp only [memReadRun, hr, ih]

/-- No work unit depends on the command word (R24). -/
theorem operationOf_unit_cmd (i : Instr) (cfg : Config) (d : Nat) (c : Command) (w : CmdWord) :
    (operationOf i).unit cfg d { c with cmd := w } = (operationOf i).unit cfg d c := by
  obtain ⟨p, n, rfl⟩ | ⟨n, pol, rfl⟩ | ⟨n, p, rfl⟩ := instr_cases i
  · rfl
  · funext g
    simp only [operationOf_packInstr, packOp, packUnit, memReadRun_cmd]
  · rw [operationOf_unpackInstr]
    rfl

/-- The word of a legal command settles which operation is performed, and nothing else of the outcome. -/
theorem runCommand_cmd {w : CmdWord} {i : Instr} (hd : decode w = .instr i) (s : State) (c : Command) :
    runCommand { s with command := some { c with cmd := w } } =
      perform (operationOf i) { s with command := some c } := by
  simp only [runCommand, hd]
  rw [exec_eq_perform, perform_cmd (operationOf_unit_cmd i)]

theorem decode_word_bitrev {p n : Nat} (hp : p < 4) (hn : n < 256) : decode (word n p 0) = .instr (.bitrev p n) := by
  obtain ⟨ho, hp', hr, hn'⟩ := word_fields hn hp (show 0 < 4 by decide)
  rw [decode_bitrev hr ho, hp', hn']

theorem decode_word_unpack (n : Width) {p : Nat} (hp : p < 4) :
    decode (word n.nbits p 2) = .instr (unpackInstr n p) := by
  obtain ⟨ho, hp', hr, hn'⟩ := word_fields (show n.nbits < 256 by cases n <;> decide) hp (show 2 < 4 by decide)
  rw [decode_unpack hn' hr ho, hp']

/-- Settles O14: words that differ in an ignored field alone decode to instructions of one operation, and the
operation sees nothing else of the word; a reserved bit is tested before any operation. -/
theorem ignoredFieldsChangeNothing : Obligations.IgnoredFieldsChangeNothing := by
  refine ⟨fun s c p n p' n' hp hn hp' hn' => ⟨⟨_, decode_word_bitrev hp hn⟩, ?_⟩,
    fun s c w p p' hp hp' => ⟨⟨_, decode_word_unpack w hp⟩, ?_⟩, fun w h => decode_bad (.inr (.inl h))⟩
  · rw [runCommand_cmd (decode_word_bitrev hp hn), runCommand_cmd (decode_word_bitrev hp' hn')]
    rfl
  · rw [runCommand_cmd (decode_word_unpack w hp), runCommand_cmd (decode_word_unpack w hp'),
      operationOf_unpackInstr, operationOf_unpackInstr]

end Sys2Proof.Machine
end

section
/-! SUPPORT. Unit bit_reversal_lut (40_bit_reverse.md): `rev8` bit by bit (R100), the wide formula bit by bit and what
each width of its intermediate loses (R103, R104), and `bitrev` performed twice (R105). -/

namespace Sys2Proof.Machine

/-! ### The reversed byte, bit by bit -/

/-- The sum of bits, each shifted to its place, is the number they spell. -/
theorem sum_range_shiftLeft_eq_ofBits (b : Nat → Bool) (n : Nat) :
    ((List.range n).map fun j => (b j).toNat <<< j).sum = Nat.ofBits fun j : Fin n => b j := by
  induction n generalizing b with
  | zero => rfl
  | succ n ih =>
    have htail : ((List.range n).map fun j => (b (j + 1)).toNat <<< (j + 1)).sum =
        2 * ((List.range n).map fun j => (b (j + 1)).toNat <<< j).sum := by
      simp only [Nat.shiftLeft_succ, List.sum_map_mul_left]
    rw [List.range_succ_eq_map, List.map_cons, List.map_map, List.sum_cons, Nat.ofBits_succ, Nat.add_comm]
    exact congrArg (· + _) (htail.trans (congrArg (2 * ·) (ih fun j => b (j + 1))))

/-- The sum of R100 is the number whose bit `j` is bit `7 - j` of the byte. -/
theorem reversalSum_eq_ofBits (x : Byte) :
    ((List.range 8).map fun j => ((x.toNat >>> (7 - j)) &&& 1) <<< j).sum =
      Nat.ofBits fun j : Fin 8 => x.getLsbD (7 - j) := by
  rw [← sum_range_shiftLeft_eq_ofBits fun j => x.getLsbD (7 - j)]
  simp only [Nat.and_one_is_mod, Nat.shiftRight_eq_div_pow, ← Nat.toNat_testBit, BitVec.testBit_toNat]

theorem rev8_toNat (x : Byte) : (rev8 x).toNat = Nat.ofBits fun j : Fin 8 => x.getLsbD (7 - j) := by
  rw [rev8, reversalSum_eq_ofBits, trunc8, BitVec.toNat_ofNat, Nat.mod_eq_of_lt (Nat.ofBits_lt_two_pow _)]

theorem rev8_getLsbD (x : Byte) {j : Nat} (hj : j < 8) : (rev8 x).getLsbD j = x.getLsbD (7 - j) := by
  rw [← BitVec.testBit_toNat, rev8_toNat, Nat.testBit_ofBits_lt _ _ hj]

theorem rev8_eq_reverse (x : Byte) : rev8 x = x.reverse := by
  refine BitVec.eq_of_getLsbD_eq fun j hj => ?_
  rw [rev8_getLsbD x hj, BitVec.getLsbD_reverse, BitVec.getMsbD, decide_eq_true hj, Bool.true_and]

@[simp] theorem rev8_rev8 (x : Byte) : rev8 (rev8 x) = x := by
  rw [rev8_eq_reverse, rev8_eq_reverse, BitVec.reverse_reverse_eq]

/-- Settles O18: both lines are the bits of the sum. -/
theorem rev8ReversesTheBits : Obligations.Rev8ReversesTheBits :=
  fun x => ⟨fun _ hj => rev8_getLsbD x hj, (rev8_toNat x).trans (reversalSum_eq_ofBits x).symm⟩

/-! ### The wide formula, bit by bit -/

/-- The bits of M2, the highest first (R78, R103). -/
def andBits : List Nat := [40, 35, 31, 26, 22, 17, 13, 4]

theorem andConst_eq_sum : andConst = (andBits.map (2 ^ ·)).sum := rfl

/-- Falling powers of two sum to less than any higher one. -/
theorem sum_two_pow_lt {p : Nat} {ps : List Nat} (h : (p :: ps).Pairwise (· > ·)) :
    (ps.map (2 ^ ·)).sum < 2 ^ p := by
  induction ps generalizing p with
  | nil => exact Nat.two_pow_pos p
  | cons q qs ih =>
    obtain ⟨hp, hqs⟩ := List.pairwise_cons.1 h
    have hlt := ih hqs
    have hle : 2 ^ (q + 1) ≤ 2 ^ p := Nat.pow_le_pow_right (by decide) (hp q List.mem_cons_self)
    rw [List.map_cons, List.sum_cons]
    omega

/-- A mask with bits at falling places keeps the bits at those places. -/
theorem and_sum_two_pow (v : Nat) {ps : List Nat} (h : ps.Pairwise (· > ·)) :
    v &&& (ps.map (2 ^ ·)).sum = (ps.map fun p => (v.testBit p).toNat * 2 ^ p).sum := by
  induction ps with
  | nil => exact Nat.and_zero v
  | cons p ps ih =>
    have hlt := sum_two_pow_lt h
    have hor := Nat.two_pow_add_eq_or_of_lt hlt 1
    have hor' := Nat.two_pow_add_eq_or_of_lt (Nat.and_le_right.trans_lt hlt : v &&& _ < 2 ^ p) (v.testBit p).toNat
    rw [Nat.mul_one] at hor
    rw [List.map_cons, List.sum_cons, hor, Nat.and_or_distrib_left, Nat.and_two_pow, Nat.mul_comm, ← hor',
      ih h.of_cons, Nat.mul_comm, List.map_cons, List.sum_cons]

/-- Multiplying by M1 puts five copies of the byte side by side, from bit 1 on (R103). -/
theorem product_testBit (x : Byte) {p : Nat} (h1 : 1 ≤ p) (h2 : p < 41) :
    (x.toNat * mulConst).testBit p = x.getLsbD ((p - 1) % 8) := by
  have hx : x.toNat < 2 ^ 8 := x.isLt
  have hcopies : x.toNat * mulConst =
      2 ^ 1 * (2 ^ 8 * (2 ^ 8 * (2 ^ 8 * (2 ^ 8 * x.toNat + x.toNat) + x.toNat) + x.toNat) + x.toNat) + 0 := by
    rw [mulConst]; omega
  rw [hcopies, Nat.testBit_two_pow_mul_add _ (by decide), if_neg (by omega)]
  simp only [Nat.testBit_two_pow_mul_add _ hx, BitVec.testBit_toNat]
  split_ifs <;> congr 1 <;> omega

/-- Modulo 1023 a bit at place `p` counts as one at place `p % 10`, since `2 ^ 10 = 1` there (R103). -/
theorem two_pow_modEq (p : Nat) : 2 ^ p ≡ 2 ^ (p % 10) [MOD 1023] := by
  have h10 : 2 ^ 10 ≡ 1 [MOD 1023] := by decide
  calc 2 ^ p = (2 ^ 10) ^ (p / 10) * 2 ^ (p % 10) := by rw [← pow_mul, ← pow_add, Nat.div_add_mod]
    _ ≡ 1 ^ (p / 10) * 2 ^ (p % 10) [MOD 1023] := (h10.pow _).mul_right _
    _ = 2 ^ (p % 10) := by rw [one_pow, one_mul]

theorem sum_bits_modEq (b : Nat → Bool) (ps : List Nat) :
    (ps.map fun p => (b p).toNat * 2 ^ p).sum ≡ (ps.map fun p => (b p).toNat * 2 ^ (p % 10)).sum [MOD 1023] := by
  induction ps with
  | nil => rfl
  | cons p ps ih => exact ((two_pow_modEq p).mul_left _).add ih

/-- Modulo 1023 the bits of M2 fall on the eight places of a byte. -/
theorem sum_andBits_mod (b : Nat → Bool) :
    (andBits.map fun p => (b p).toNat * 2 ^ p).sum % 1023 =
      (andBits.map fun p => (b p).toNat * 2 ^ (p % 10)).sum := by
  refine Nat.mod_eq_of_modEq (sum_bits_modEq b andBits) ?_
  calc (andBits.map fun p => (b p).toNat * 2 ^ (p % 10)).sum
      ≤ (andBits.map fun p => 1 * 2 ^ (p % 10)).sum :=
        List.sum_le_sum fun p _ => Nat.mul_le_mul_right _ (Bool.toNat_le (b p))
    _ < 1023 := by decide

/-- The formula bit by bit: each bit of M2 below the width takes one bit of the byte to its place in the result. -/
theorem revFormula_eq_sum (width : Nat) (x : Byte) :
    revFormula width x =
      (andBits.map fun p => (decide (p < width) && x.getLsbD ((p - 1) % 8)).toNat * 2 ^ (p % 10)).sum := by
  have hrange : ∀ p ∈ andBits, 1 ≤ p ∧ p < 41 := by decide
  rw [revFormula, andConst_eq_sum, and_sum_two_pow _ (by decide), ← sum_andBits_mod]
  refine congrArg (List.sum · % 1023) (List.map_congr_left fun p hp => ?_)
  obtain ⟨h1, h2⟩ := hrange p hp
  rw [Nat.testBit_mod_two_pow, product_testBit x h1 h2]

/-- Each bit of M2 takes input bit `(p - 1) % 8` to output bit `p % 10`, and so every bit `7 - j` to bit `j`. -/
theorem andBits_perm :
    (andBits.map fun p => ((p - 1) % 8, p % 10)).Perm ((List.range 8).map fun j => (7 - j, j)) := by decide

theorem rev8_eq_sum (x : Byte) :
    (rev8 x).toNat = (andBits.map fun p => (x.getLsbD ((p - 1) % 8)).toNat * 2 ^ (p % 10)).sum := by
  have hsum := (andBits_perm.map fun q => (x.getLsbD q.1).toNat * 2 ^ q.2).sum_eq
  rw [List.map_map, List.map_map] at hsum
  rw [rev8_toNat, ← sum_range_shiftLeft_eq_ofBits fun j => x.getLsbD (7 - j)]
  simp only [Nat.shiftLeft_eq]
  exact hsum.symm

/-- What the formula loses of the reversed byte where it keeps `width` bits of the product: the bits that M2 takes
from higher places (R104). -/
def lostBits (width : Nat) (x : Byte) : Nat :=
  (andBits.map fun p => (decide (width ≤ p) && x.getLsbD ((p - 1) % 8)).toNat * 2 ^ (p % 10)).sum

theorem revFormula_add_lostBits (width : Nat) (x : Byte) :
    revFormula width x + lostBits width x = (rev8 x).toNat := by
  rw [revFormula_eq_sum, lostBits, rev8_eq_sum, ← List.sum_map_add]
  refine congrArg List.sum (List.map_congr_left fun p _ => ?_)
  rcases Nat.lt_or_ge p width with h | h <;> simp [h]

theorem lostBits_of_ge {width : Nat} (h : 41 ≤ width) (x : Byte) : lostBits width x = 0 := by
  simp (disch := omega) [lostBits, andBits, decide_eq_false]

theorem lostBits_of_mem_36_40 {width : Nat} (h1 : 36 ≤ width) (h2 : width ≤ 40) (x : Byte) :
    lostBits width x = (x.getLsbD 7).toNat := by
  simp (disch := omega) [lostBits, andBits, decide_eq_false, decide_eq_true]

theorem lostBits_of_mem_32_35 {width : Nat} (h1 : 32 ≤ width) (h2 : width ≤ 35) (x : Byte) :
    lostBits width x = (x.getLsbD 7).toNat + 32 * (x.getLsbD 2).toNat := by
  simp (disch := omega) [lostBits, andBits, decide_eq_false, decide_eq_true, Nat.mul_comm]

/-! ### The two builds, and the widths that are too small -/

theorem revFormula_of_ge {width : Nat} (h : 41 ≤ width) (x : Byte) : revFormula width x = (rev8 x).toNat := by
  rw [← revFormula_add_lostBits width x, lostBits_of_ge h, Nat.add_zero]

/-- The formula over naturals is the formula in 41 bits, which hold every product (R103, R104). -/
theorem formula_eq_rev8 (x : Byte) : ((x.toNat * mulConst) &&& andConst) % 1023 = (rev8 x).toNat := by
  have hproduct : x.toNat * mulConst < 2 ^ 41 := by
    have := x.isLt
    rw [mulConst]
    omega
  rw [← revFormula_of_ge (Nat.le_refl 41) x, revFormula, Nat.mod_eq_of_lt hproduct]

/-- Settles O19: the product fits in 41 bits, and no width from there on loses a bit. -/
theorem tableAndFormulaAgree : Obligations.TableAndFormulaAgree :=
  ⟨by decide, fun x => ⟨brlutAt_eq x, formula_eq_rev8 x, fun _ h => revFormula_of_ge h x, fun cfg cfg' => by
    rw [reverseByte_eq, reverseByte_eq]⟩⟩

theorem getLsbD_seven_iff (x : Byte) : x.getLsbD 7 = true ↔ 128 ≤ x.toNat := by
  have := x.isLt
  rw [← BitVec.testBit_toNat, Nat.testBit_eq_decide_div_mod_eq, decide_eq_true_iff]
  omega

/-- A width gives the wrong byte exactly for the inputs of which it loses a bit. -/
theorem revFormula_ne_iff (width : Nat) (x : Byte) :
    revFormula width x ≠ (rev8 x).toNat ↔ lostBits width x ≠ 0 := by
  have := revFormula_add_lostBits width x
  omega

/-- Settles O20: bit 40 of the product is input bit 7, and a width fails on the inputs with a bit it loses. -/
theorem formulaNeedsFortyOneBits : Obligations.FormulaNeedsFortyOneBits := by
  refine ⟨Nat.le_refl _, by decide, by decide, by decide, by decide,
    fun x => ⟨product_testBit x (by decide) (by decide), rev8_getLsbD x (by decide)⟩, fun x hx => ?_,
    fun width h1 h2 x => ?_, fun width h1 h2 => ?_⟩
  · have h7 := (getLsbD_seven_iff x).2 hx
    refine ⟨?_, (rev8_getLsbD x (by decide)).trans h7⟩
    rw [← revFormula_add_lostBits 40 x, lostBits_of_mem_36_40 (by decide) (by decide), h7, Bool.toNat_true]
  · rw [revFormula_ne_iff, lostBits_of_mem_36_40 h1 h2, ← getLsbD_seven_iff, ne_eq, Bool.toNat_eq_zero,
      Bool.not_eq_false]
  · simp only [revFormula_ne_iff, lostBits_of_mem_32_35 h1 h2]
    decide +kernel

/-! ### bitrev, and bitrev performed twice -/

/-- `bitrev` answers OK with every byte reversed, from any point of CORE's work (R101). -/
theorem bitrev_done {s : State} {c : Command} {p n : Nat} (h : s.Performing (.bitrev p n) c) :
    ∃ m, exec (.bitrev p n) s = .next (s.answered ⟨0, 0, c.n, m⟩ 0) ∧
      Holds m c.n (fun j => rev8 (trunc8 (c.byteAt j))) := by
  obtain ⟨hc, hw, hp⟩ := h
  exact perform_ok hc hp (bitrev_units hw _ _) rfl

/-- A response of `bitrev` is as long as the input and holds its bytes reversed. -/
theorem bitrev_response {s t : State} {c : Command} {p n : Nat} {r : Response} (h : s.Performing (.bitrev p n) c)
    (he : exec (.bitrev p n) s = .next t) (hr : t.response = some r) :
    r.len = c.n ∧ Holds r.obuf c.n (fun j => rev8 (trunc8 (c.byteAt j))) := by
  obtain ⟨m, hm, hholds⟩ := bitrev_done h
  cases hm.symm.trans he
  cases hr
  exact ⟨rfl, hholds⟩

/-- Settles O22: the second command reads the reversed bytes and reverses them again. -/
theorem bitrevTwiceRestoresTheInput : Obligations.BitrevTwiceRestoresTheInput := by
  refine ⟨rev8_rev8, by decide, by decide, by decide,
    fun s s' t t' c c' p n p' n' r r' h he hr h' hn hbuf he' hr' => ?_⟩
  obtain ⟨hlen, hobuf⟩ := bitrev_response h he hr
  obtain ⟨hlen', hobuf'⟩ := bitrev_response h' he' hr'
  have hnn : c'.n = c.n := hn.trans hlen
  rw [hnn] at hlen' hobuf'
  obtain ⟨-, hw, -⟩ := h
  refine ⟨hlen', hobuf'.unique (holds_ibuf hw) fun j hj => ?_⟩
  have hread : Memory.read c'.ibuf j = some (rev8 (trunc8 (c.byteAt j))) := by rw [hbuf, hobuf.2 j hj]
  rw [byteAt_eq hread, trunc8, BitVec.ofNat_toNat, BitVec.setWidth_eq, rev8_rev8, trunc8]

end Sys2Proof.Machine
end

section
/-! SUPPORT. Unit pack_bit_field_encoder (41_pack.md): the length check and the range scan with what each reports (R125,
R126), the empty input (R130), and what a response of `pack` depends on (R131). -/

namespace Sys2Proof.Machine

/-! ### Commands that end in an error -/

/-- An operation whose checks find an error answers with it and draws nothing (R180). -/
theorem exec_of_check_error {i : Instr} {s : State} {c : Command} {e : CoreError} (hc : s.command = some c)
    (h : (operationOf i).check c s.progress.scanned = .ok (some e)) :
    exec i s = .next (s.answered (errorResponse e) 0) := by
  rw [exec_eq_perform]
  simp only [perform, hc, h]
  rfl

/-- A length error is found before any sample is read, wherever the scan has got to (R176). -/
theorem check_of_lengthError {o : Operation} {c : Command} {e : CoreError} (h : o.lengthError c.n = some e)
    (scanned : Nat) : o.check c scanned = .ok (some e) := by
  simp only [Operation.check, h]

/-- An operation without a range scan has its length error alone. -/
theorem check_of_no_scan {o : Operation} (h : o.scanLimit = none) (c : Command) (scanned : Nat) :
    o.check c scanned = .ok (o.lengthError c.n) := by
  unfold Operation.check
  cases o.lengthError c.n with
  | none => simp only [h]
  | some e => rfl

/-! ### The length check of pack -/

theorem packLengthError_full {n : Width} {len : Nat} (h : len % samplesPerByte n = 0) :
    packLengthError n len = none := if_pos h

theorem packLengthError_partial {n : Width} {len : Nat} (h : len % samplesPerByte n ≠ 0) :
    packLengthError n len = some (.invalidLength len) := if_neg h

/-- A partial group is refused under every policy and whatever IBUF holds (R126). -/
theorem exec_pack_partial {s : State} {c : Command} {n : Width} (pol : Policy) (hc : s.command = some c)
    (h : c.n % samplesPerByte n ≠ 0) : exec (packInstr n pol) s = .next (s.answered ⟨2, c.n, 0, []⟩ 0) := by
  refine exec_of_check_error hc (e := .invalidLength c.n) ?_
  rw [operationOf_packInstr]
  exact check_of_lengthError (packLengthError_partial h) _

/-- Settles O27: the length check comes before the first read. -/
theorem packRefusesPartialGroups : Obligations.PackRefusesPartialGroups := by
  intro s c n pol hc h
  rw [← samplesPerByte_eq] at h
  exact exec_pack_partial pol hc h

/-! ### The range scan of pack -/

/-- The STRICT scan, from wherever it has got to, finds the lowest sample above the mask (R125). -/
theorem check_pack_strict {s : State} {c : Command} {n : Width} {i : Nat} (hw : c.wf = true)
    (hp : ProgressFrom (packOp n .strict) s c) (hn : c.n % samplesPerByte n = 0) (hi : i < c.n)
    (hbad : fmask n < c.byteAt i) (hlow : ∀ m, m < i → c.byteAt m ≤ fmask n) :
    (packOp n .strict).check c s.progress.scanned = .ok (some (.outOfRangeSample i)) := by
  obtain ⟨e, he, -⟩ | ⟨-, -, hle⟩ | ⟨-, limit, k, hlimit, hk, -, hkbad, hklow⟩ := check_cases hw hp
  · cases (packLengthError_full hn).symm.trans he
  · exact absurd (hle _ rfl i hi) (by omega)
  · cases hlimit
    obtain hlt | rfl | hgt := Nat.lt_trichotomy k i
    · exact absurd (hlow k hlt) (by omega)
    · exact hk
    · exact absurd (hklow i hgt) (by omega)

theorem exec_pack_strict {s : State} {c : Command} {n : Width} {i : Nat} (h : s.Performing (packInstr n .strict) c)
    (hn : c.n % samplesPerByte n = 0) (hi : i < c.n) (hbad : fmask n < c.byteAt i)
    (hlow : ∀ m, m < i → c.byteAt m ≤ fmask n) :
    exec (packInstr n .strict) s = .next (s.answered ⟨3, i, 0, []⟩ 0) := by
  obtain ⟨hc, hw, hp⟩ := h
  refine exec_of_check_error hc (e := .outOfRangeSample i) ?_
  rw [operationOf_packInstr] at hp ⊢
  exact check_pack_strict hw hp hn hi hbad hlow

/-- The scan is made under STRICT only (R125). -/
theorem packScanLimit_none {n : Width} {pol : Policy} (h : pol ≠ .strict) : packScanLimit n pol = none := by
  cases pol with
  | trust => rfl
  | mask => rfl
  | strict => exact absurd rfl h

/-- Under TRUST and MASK `pack` ends OK or in InvalidLength (R125, R175). -/
theorem pack_status_unscanned {s t : State} {n : Width} {pol : Policy} {r : Response} (hpol : pol ≠ .strict)
    (he : exec (packInstr n pol) s = .next t) (hr : t.response = some r) : r.status = 0 ∨ r.status = 2 := by
  rw [exec_eq_perform, operationOf_packInstr] at he
  obtain ⟨c, -, ⟨e, hcheck, rfl⟩ | ⟨m, -, -, rfl⟩⟩ := perform_cases he
  · rw [check_of_no_scan (packScanLimit_none hpol)] at hcheck
    have hlen : (operationOf (packInstr n pol)).lengthError c.n = some e := by
      rw [operationOf_packInstr]
      exact Except.ok.inj hcheck
    obtain ⟨rfl, -⟩ := lengthError_cases _ _ _ hlen
    cases hr
    exact .inr rfl
  · cases hr
    exact .inl rfl

/-- Settles O28: the scan finds the lowest bad sample, the length check comes before it, and only STRICT scans. -/
theorem strictReportsTheFirstBadSample : Obligations.StrictReportsTheFirstBadSample := by
  refine ⟨fun s c n i h hn hi hbad hlow => ?_, fun s c n hc hn => packRefusesPartialGroups s c n .strict hc hn,
    fun s t n pol r hpol he hr => ?_⟩
  · rw [← samplesPerByte_eq] at hn
    rw [← fmask_eq] at hbad hlow
    exact exec_pack_strict h hn hi hbad hlow
  · obtain h | h := pack_status_unscanned hpol he hr <;> rw [h] <;> decide

/-! ### The empty input -/

theorem Holds.eq_nil {m : Memory} {f : Nat → Byte} (h : Holds m 0 f) : m = [] := List.map_eq_nil_iff.1 h.1

/-- An empty input makes no group, under every policy (R130). -/
theorem exec_pack_empty {s : State} {c : Command} {n : Width} {pol : Policy} (h : s.Performing (packInstr n pol) c)
    (hn : c.n = 0) : exec (packInstr n pol) s = .next (s.answered ⟨0, 0, 0, []⟩ 0) := by
  obtain ⟨m, he, hm⟩ := pack_done h (by rw [hn, Nat.zero_mod]) (fun _ i hi => by omega)
  simp only [hn, Nat.zero_div, ite_self] at he hm
  rw [he, hm.eq_nil]

/-- Settles O29: an empty input passes both checks of `pack`, and decoding refuses the width before either. -/
theorem packOfNothing : Obligations.PackOfNothing := by
  refine ⟨fun s c n pol h hn => exec_pack_empty h hn, fun s c n p hc _ hn hp h1 h2 h4 hw => ?_⟩
  obtain ⟨ho, hp', hr, hn'⟩ := word_fields hn (show p < 4 by omega) (show 1 < 4 by decide)
  have hbad : badWidth c.cmd := by
    rw [hw, badWidth_iff, ho, hp', hr, hn']
    omega
  rw [runCommand_badWidth hc hbad, hw, hn']

/-! ### What a response of pack depends on -/

theorem le_fmask_iff {n : Width} {x : Nat} : x ≤ fmask n ↔ x < 2 ^ n.nbits := by
  rw [fmask_eq, Nat.le_sub_one_iff_lt (Nat.two_pow_pos _)]

/-- Conditioning leaves an in-range sample as it is (R123). -/
theorem condition_of_inRange {n : Width} (pol : Policy) {x : Nat} (h : x < 2 ^ n.nbits) : condition n pol x = x := by
  cases pol with
  | trust => rfl
  | mask => rw [condition, fmask_eq, Nat.and_two_pow_sub_one_of_lt_two_pow h]
  | strict => rfl

/-- Every sample of a group of the output is a sample of the input. -/
theorem groupIndex_lt {n : Width} {len g j : Nat} (hg : g < len / samplesPerByte n) (hj : j < samplesPerByte n) :
    g * samplesPerByte n + j < len := by
  have := (Nat.le_div_iff_mul_le (samplesPerByte_pos n)).1 hg
  rw [Nat.succ_mul] at this
  omega

/-- `pack` of whole groups, where it masks or its samples are in range, answers OK with the formula's byte of each
group, no free byte among them (R121, R124). -/
theorem pack_done_formula {s : State} {c : Command} {n : Width} {pol : Policy} (h : s.Performing (packInstr n pol) c)
    (hn : c.n % samplesPerByte n = 0) (hr : pol = .mask ∨ c.inRange n) :
    ∃ m t, exec (packInstr n pol) s = .next t ∧ t.response = some ⟨0, 0, c.n / samplesPerByte n, m⟩ ∧
      Holds m (c.n / samplesPerByte n)
        (fun g => trunc8 (orFields n ((groupSamples n c g).map (condition n pol)))) := by
  have hle : pol ≠ .mask → ∀ i, i < c.n → c.byteAt i ≤ fmask n := fun hm i hi =>
    le_fmask_iff.2 (hr.resolve_left hm i hi)
  obtain ⟨m, he, hidx, hbyte⟩ := pack_done h hn fun hs => hle (by rw [hs]; decide)
  refine ⟨m, _, he, rfl, hidx, fun g hg => (hbyte g hg).trans (congrArg some (packByte_formula fun hd => ?_))⟩
  have hm : pol ≠ .mask := by rw [(drawsFree_iff.1 hd).1]; decide
  rw [← Bool.not_eq_true, outOfRange_iff]
  rintro ⟨j, hj, hbad⟩
  exact absurd (hle hm _ (groupIndex_lt hg hj)) (by omega)

/-- The response of `pack`, where it masks or its samples are in range, is a function of the width and the conditioned
samples: policy, parameters and CORE's progress reach it no other way (R123, R131). -/
theorem pack_response_congr {s s' : State} {c c' : Command} {n : Width} {pol pol' : Policy}
    (h : s.Performing (packInstr n pol) c) (h' : s'.Performing (packInstr n pol') c')
    (hr : pol = .mask ∨ c.inRange n) (hr' : pol' = .mask ∨ c'.inRange n) (hlen : c'.n = c.n)
    (hx : ∀ i, i < c.n → condition n pol (c.byteAt i) = condition n pol' (c'.byteAt i)) :
    ∃ t t', exec (packInstr n pol) s = .next t ∧ exec (packInstr n pol') s' = .next t' ∧
      t.response = t'.response := by
  by_cases hn : c.n % samplesPerByte n = 0
  · obtain ⟨m, t, he, ht, hm⟩ := pack_done_formula h hn hr
    obtain ⟨m', t', he', ht', hm'⟩ := pack_done_formula h' (hlen ▸ hn) hr'
    rw [hlen] at ht' hm'
    have hgroup : ∀ g, g < c.n / samplesPerByte n →
        (groupSamples n c g).map (condition n pol) = (groupSamples n c' g).map (condition n pol') := fun g hg => by
      simp only [groupSamples, List.map_map]
      exact List.map_congr_left fun j hj => hx _ (groupIndex_lt hg (List.mem_range.1 hj))
    refine ⟨t, t', he, he', ?_⟩
    rw [ht, ht', hm.unique hm' fun g hg => by rw [hgroup g hg]]
  · obtain ⟨hc, -⟩ := h
    obtain ⟨hc', -⟩ := h'
    refine ⟨_, _, exec_pack_partial pol hc hn, exec_pack_partial pol' hc' (hlen ▸ hn), ?_⟩
    rw [hlen]
    rfl

/-- Settles O30: in both halves the conditioned samples are the same, and samples that are masked are in range. -/
theorem policiesAgreeInRange : Obligations.PoliciesAgreeInRange := by
  refine ⟨fun s s' c n pol pol' h h' hr => pack_response_congr h h' (.inr hr) (.inr hr) rfl fun i hi => ?_,
    fun s s' c c' n h h' hlen hx => pack_response_congr h h' (.inl rfl) (.inr fun i hi => ?_) hlen fun i hi => ?_⟩
  · rw [condition_of_inRange pol (hr i hi), condition_of_inRange pol' (hr i hi)]
  · rw [hx i (hlen ▸ hi), ← fmask_eq, ← le_fmask_iff]
    exact Nat.and_le_right
  · rw [hx i hi, condition, condition, fmask_eq]

end Sys2Proof.Machine
end

section
/-! SUPPORT. The fields of a packed byte (42_unpack.md R151): their bits, and that assembling samples (41_pack.md R121)
and taking the fields of the byte apart undo each other. -/

namespace Sys2Proof.Machine

/-! ### The places of the fields -/

theorem nbits_pos (n : Width) : 0 < n.nbits := by cases n <;> decide

theorem samplesPerByte_mul_nbits (n : Width) : samplesPerByte n * n.nbits = 8 := by cases n <;> rfl

/-- The fields in order, from the top, fill the byte and no more. -/
theorem nbits_mul_le {n : Width} {j : Nat} (hj : j < samplesPerByte n) : n.nbits * (j + 1) ≤ 8 := by
  rw [← samplesPerByte_mul_nbits n, Nat.mul_comm (samplesPerByte n)]
  exact Nat.mul_le_mul_left _ hj

/-- An earlier field lies wholly above a later one (R55). -/
theorem fieldPlace_lt {n : Width} {i j : Nat} (hij : i < j) (hj : j < samplesPerByte n) :
    8 - n.nbits * (j + 1) + n.nbits ≤ 8 - n.nbits * (i + 1) := by
  have hlast := nbits_mul_le hj
  have hstep : n.nbits * (i + 1) ≤ n.nbits * j := Nat.mul_le_mul_left _ hij
  rw [Nat.mul_succ n.nbits j] at hlast ⊢
  omega

/-- Every field lies within the byte. -/
theorem fieldPlace_add_lt {n : Width} {j b : Nat} (hb : b < n.nbits) : 8 - n.nbits * (j + 1) + b < 8 := by
  have hn : n.nbits ≤ 8 := by cases n <;> decide
  rw [Nat.mul_succ]
  omega

/-- Every bit of a byte lies in a field. -/
theorem exists_fieldPlace (n : Width) {k : Nat} (hk : k < 8) :
    ∃ j b, j < samplesPerByte n ∧ b < n.nbits ∧ k = 8 - n.nbits * (j + 1) + b := by
  have hj : (7 - k) / n.nbits < samplesPerByte n := by
    rw [Nat.div_lt_iff_lt_mul (nbits_pos n), samplesPerByte_mul_nbits]
    omega
  have hle := nbits_mul_le hj
  have hdiv := Nat.div_add_mod (7 - k) n.nbits
  have hmod := Nat.mod_lt (7 - k) (nbits_pos n)
  rw [Nat.mul_succ] at hle
  refine ⟨(7 - k) / n.nbits, n.nbits - 1 - (7 - k) % n.nbits, hj, by omega, ?_⟩
  rw [Nat.mul_succ]
  omega

/-! ### Taking fields -/

/-- Field `j` of a packed byte, `(v >> SH(n, j)) & FMASK(n)` (R151). -/
def byteField (n : Width) (v j : Nat) : Nat := (v >>> (8 - n.nbits * (j + 1))) &&& fmask n

/-- The fields that unpack takes of a byte. -/
theorem unpackFields_eq (n : Width) (b : Byte) :
    unpackFields n b = (List.range (samplesPerByte n)).map fun j => trunc8 (byteField n b.toNat j) := by
  rw [unpackFields, shifts_eq, List.map_map]
  rfl

/-- The second form of R151: masking in place, then shifting. -/
theorem byteField_eq_mask_shift (n : Width) (v j : Nat) :
    byteField n v j = (v &&& (fmask n <<< (8 - n.nbits * (j + 1)))) >>> (8 - n.nbits * (j + 1)) := by
  rw [byteField, Nat.shiftRight_and_distrib, Nat.shiftLeft_shiftRight]

theorem byteField_le (n : Width) (v j : Nat) : byteField n v j ≤ fmask n := Nat.and_le_right

theorem byteField_lt (n : Width) (v j : Nat) : byteField n v j < 2 ^ n.nbits := le_fmask_iff.1 (byteField_le n v j)

theorem trunc8_byteField (n : Width) (v j : Nat) : (trunc8 (byteField n v j)).toNat = byteField n v j := by
  have hmask : fmask n < 256 := by cases n <;> decide
  have := byteField_le n v j
  rw [trunc8, BitVec.toNat_ofNat, Nat.mod_eq_of_lt (by omega)]

theorem testBit_byteField (n : Width) (v j : Nat) {b : Nat} (hb : b < n.nbits) :
    (byteField n v j).testBit b = v.testBit (8 - n.nbits * (j + 1) + b) := by
  rw [byteField, fmask_eq, Nat.testBit_and, Nat.testBit_two_pow_sub_one, Nat.testBit_shiftRight, decide_eq_true hb,
    Bool.and_true]

/-- A byte is its fields. -/
theorem eq_of_byteField_eq {n : Width} {x y : Byte}
    (h : ∀ j, j < samplesPerByte n → byteField n x.toNat j = byteField n y.toNat j) : x = y := by
  refine BitVec.eq_of_getLsbD_eq fun k hk => ?_
  obtain ⟨j, b, hj, hb, rfl⟩ := exists_fieldPlace n hk
  rw [← BitVec.testBit_toNat, ← BitVec.testBit_toNat, ← testBit_byteField n _ j hb, h j hj,
    testBit_byteField n _ j hb]

/-! ### Assembling fields -/

theorem testBit_foldl_or (xs : List Nat) (a k : Nat) :
    (xs.foldl (fun v x => v ||| x) a).testBit k = (a.testBit k || xs.any (·.testBit k)) := by
  induction xs generalizing a with
  | nil => simp
  | cons x xs ih => rw [List.foldl_cons, ih, Nat.testBit_or, List.any_cons, Bool.or_assoc]

/-- The bits of an assembled byte are those of the samples, each shifted to its field (R121). -/
theorem testBit_orFields {n : Width} {x : Nat → Nat} {k : Nat} :
    (orFields n ((List.range (samplesPerByte n)).map x)).testBit k = true ↔
      ∃ j, j < samplesPerByte n ∧ 8 - n.nbits * (j + 1) ≤ k ∧
        (x j).testBit (k - (8 - n.nbits * (j + 1))) = true := by
  simp only [orFields, shifts_eq, List.zipWith_map, List.zipWith_self, testBit_foldl_or, Nat.zero_testBit,
    Bool.false_or, List.any_map, List.any_eq_true, List.mem_range, Function.comp_apply, Nat.testBit_shiftLeft,
    Bool.and_eq_true, decide_eq_true_eq, ge_iff_le]

/-- A bit of a field is a bit of the sample assembled there: in-range samples do not reach into other fields (R55). -/
theorem testBit_orFields_place {n : Width} {x : Nat → Nat} {j b : Nat}
    (hx : ∀ i, i < samplesPerByte n → x i < 2 ^ n.nbits) (hj : j < samplesPerByte n) (hb : b < n.nbits) :
    (orFields n ((List.range (samplesPerByte n)).map x)).testBit (8 - n.nbits * (j + 1) + b) = (x j).testBit b := by
  rw [Bool.eq_iff_iff, testBit_orFields]
  constructor
  · rintro ⟨i, hi, hle, hbit⟩
    have hlow : 8 - n.nbits * (j + 1) + b - (8 - n.nbits * (i + 1)) < n.nbits :=
      (Nat.pow_lt_pow_iff_right (by decide)).1 ((Nat.ge_two_pow_of_testBit hbit).trans_lt (hx i hi))
    obtain hij | rfl | hji := Nat.lt_trichotomy i j
    · have := fieldPlace_lt hij hj
      omega
    · rwa [Nat.add_sub_cancel_left] at hbit
    · have := fieldPlace_lt hji hi
      omega
  · exact fun h => ⟨j, hj, Nat.le_add_right _ _, by rwa [Nat.add_sub_cancel_left]⟩

/-- Field `j` of assembled in-range samples is sample `j` (R156). -/
theorem byteField_orFields {n : Width} {x : Nat → Nat} {j : Nat}
    (hx : ∀ i, i < samplesPerByte n → x i < 2 ^ n.nbits) (hj : j < samplesPerByte n) :
    byteField n (trunc8 (orFields n ((List.range (samplesPerByte n)).map x))).toNat j = x j := by
  refine Nat.eq_of_testBit_eq fun b => ?_
  by_cases hb : b < n.nbits
  · rw [testBit_byteField n _ j hb, trunc8, BitVec.toNat_ofNat, Nat.testBit_mod_two_pow,
      decide_eq_true (fieldPlace_add_lt hb), Bool.true_and, testBit_orFields_place hx hj hb]
  · have hpow : 2 ^ n.nbits ≤ 2 ^ b := Nat.pow_le_pow_right (by decide) (Nat.le_of_not_lt hb)
    rw [Nat.testBit_lt_two_pow ((byteField_lt _ _ _).trans_le hpow), Nat.testBit_lt_two_pow ((hx j hj).trans_le hpow)]

/-- Assembling the fields of a byte gives the byte (R157). -/
theorem orFields_byteField (n : Width) (b : Byte) :
    trunc8 (orFields n ((List.range (samplesPerByte n)).map (byteField n b.toNat))) = b :=
  eq_of_byteField_eq fun _ hj => byteField_orFields (fun _ _ => byteField_lt n _ _) hj

end Sys2Proof.Machine
end

section
/-! SUPPORT. Unit unpack_bit_field_decoder (42_unpack.md): its response field by field (R151, R152), the round trips
with `pack` (R156, R157), and the length laws (R158). -/

namespace Sys2Proof.Machine

/-! ### Completion of unpack -/

/-- `unpack` answers OK with every field in its own byte, from any point of CORE's work (R151, R152). -/
theorem unpack_done {s : State} {c : Command} {n : Width} {p : Nat} (h : s.Performing (unpackInstr n p) c) :
    ∃ m, exec (unpackInstr n p) s = .next (s.answered ⟨0, 0, c.n * samplesPerByte n, m⟩ 0) ∧
      Holds m (c.n * samplesPerByte n)
        (fun a => trunc8 (byteField n (c.byteAt (a / samplesPerByte n)) (a % samplesPerByte n))) := by
  obtain ⟨hc, hw, hp⟩ := h
  rw [operationOf_unpackInstr] at hp
  rw [exec_eq_perform, operationOf_unpackInstr]
  exact perform_ok hc hp (unpack_units hw n _ _) rfl

/-- The response of `unpack`. -/
theorem unpack_response {s t : State} {c : Command} {n : Width} {p : Nat} {r : Response}
    (h : s.Performing (unpackInstr n p) c) (he : exec (unpackInstr n p) s = .next t) (hr : t.response = some r) :
    r.status = 0 ∧ r.len = c.n * samplesPerByte n ∧ Holds r.obuf (c.n * samplesPerByte n)
      (fun a => trunc8 (byteField n (c.byteAt (a / samplesPerByte n)) (a % samplesPerByte n))) := by
  obtain ⟨m, hm, hholds⟩ := unpack_done h
  cases hm.symm.trans he
  cases hr
  exact ⟨rfl, rfl, hholds⟩

/-- The output length of `unpack` in both its forms (R152, R158). -/
theorem mul_samplesPerByte_eq (n : Width) (len : Nat) : len * samplesPerByte n = len * 8 / n.nbits := by
  rw [← samplesPerByte_mul_nbits n, ← Nat.mul_assoc, Nat.mul_div_cancel _ (nbits_pos n)]

/-- The group and the place in it of an index. -/
theorem groupIndex_div_mod {n : Width} {g j : Nat} (hj : j < samplesPerByte n) :
    (g * samplesPerByte n + j) / samplesPerByte n = g ∧ (g * samplesPerByte n + j) % samplesPerByte n = j := by
  rw [Nat.mul_comm, Nat.mul_add_div (samplesPerByte_pos n), Nat.div_eq_of_lt hj, Nat.mul_add_mod, Nat.mod_eq_of_lt hj]
  exact ⟨rfl, rfl⟩

/-- Settles O31: byte `i*K(n) + j` of the output is field `j` of input byte `i`. -/
theorem unpackExtractsTheFields : Obligations.UnpackExtractsTheFields := by
  intro s c n p h
  obtain ⟨m, he, hidx, hbyte⟩ := unpack_done h
  rw [← samplesPerByte_eq, ← fmask_eq]
  refine ⟨m, he, hidx, mul_samplesPerByte_eq n c.n, fun i j hi hj => ?_⟩
  have hij : i * samplesPerByte n + j < c.n * samplesPerByte n :=
    groupIndex_lt (by rwa [Nat.mul_div_cancel _ (samplesPerByte_pos n)]) hj
  obtain ⟨hdiv, hmod⟩ := groupIndex_div_mod (g := i) hj
  refine ⟨_, hbyte _ hij, ?_⟩
  rw [trunc8_byteField, hdiv, hmod]
  exact ⟨byteField_le _ _ _, rfl, byteField_eq_mask_shift _ _ _⟩

/-! ### Round trips -/

/-- The response of `pack` of whole groups of in-range samples, under every policy (R121, R131). -/
theorem pack_response_inRange {s t : State} {c : Command} {n : Width} {pol : Policy} {r : Response}
    (h : s.Performing (packInstr n pol) c) (hn : c.n % samplesPerByte n = 0) (hx : c.inRange n)
    (he : exec (packInstr n pol) s = .next t) (hr : t.response = some r) :
    r.status = 0 ∧ r.len = c.n / samplesPerByte n ∧
      Holds r.obuf (c.n / samplesPerByte n) (fun g => trunc8 (orFields n (groupSamples n c g))) := by
  obtain ⟨m, t', he', ht', hidx, hbyte⟩ := pack_done_formula h hn (.inr hx)
  cases he'.symm.trans he
  cases ht'.symm.trans hr
  refine ⟨rfl, rfl, hidx, fun g hg => ?_⟩
  have hcond : (groupSamples n c g).map (condition n pol) = groupSamples n c g := by
    simp only [groupSamples, List.map_map]
    exact List.map_congr_left fun j hj => condition_of_inRange pol (hx _ (groupIndex_lt hg (List.mem_range.1 hj)))
  exact (hbyte g hg).trans (congrArg (fun xs => some (trunc8 (orFields n xs))) hcond)

/-- Settles O32: field `j` of the byte packed from group `g` is sample `g*K(n) + j`. -/
theorem unpackOfPack : Obligations.UnpackOfPack := by
  intro s s' t t' c c' n pol p r r' h hn hx he hr h' hlen hbuf he' hr'
  rw [← samplesPerByte_eq] at hn
  obtain ⟨-, hrlen, -, hrbyte⟩ := pack_response_inRange h hn hx he hr
  obtain ⟨hstatus, hlen', hobuf'⟩ := unpack_response h' he' hr'
  have hall : c'.n * samplesPerByte n = c.n := by rw [hlen, hrlen, Nat.div_mul_cancel (Nat.dvd_of_mod_eq_zero hn)]
  rw [hall] at hlen' hobuf'
  obtain ⟨-, hw, -⟩ := h
  refine ⟨hstatus, hlen', hobuf'.unique (holds_ibuf hw) fun a ha => ?_⟩
  have hg : a / samplesPerByte n < c.n / samplesPerByte n :=
    Nat.div_lt_div_of_lt_of_dvd (Nat.dvd_of_mod_eq_zero hn) ha
  have hread := hrbyte _ hg
  rw [← hbuf] at hread
  have hsample := byteField_orFields (fun i hi => hx _ (groupIndex_lt hg hi)) (Nat.mod_lt a (samplesPerByte_pos n))
  rw [Nat.div_add_mod'] at hsample
  rw [byteAt_eq hread]
  exact congrArg trunc8 hsample

/-- Settles O33: the fields of byte `g` are samples in range, and assembled they are byte `g`. -/
theorem packOfUnpack : Obligations.PackOfUnpack := by
  intro s s' t t' c c' n pol p r r' h he hr h' hlen hbuf he' hr'
  obtain ⟨-, hrlen, -, hrbyte⟩ := unpack_response h he hr
  have hall : c'.n = c.n * samplesPerByte n := hlen.trans hrlen
  have hfield : ∀ a, a < c'.n →
      c'.byteAt a = byteField n (c.byteAt (a / samplesPerByte n)) (a % samplesPerByte n) := fun a ha => by
    have hread := hrbyte a (hall ▸ ha)
    rw [← hbuf] at hread
    rw [byteAt_eq hread, trunc8_byteField]
  have hx : c'.inRange n := fun a ha => by
    rw [hfield a ha]
    exact byteField_lt _ _ _
  obtain ⟨hstatus, hlen', hobuf'⟩ := pack_response_inRange h' (by rw [hall, Nat.mul_mod_left]) hx he' hr'
  have hgroups : c'.n / samplesPerByte n = c.n := by rw [hall, Nat.mul_div_cancel _ (samplesPerByte_pos n)]
  rw [hgroups] at hlen' hobuf'
  obtain ⟨-, hw, -⟩ := h
  refine ⟨hstatus, hlen', hobuf'.unique (holds_ibuf hw) fun g hg => ?_⟩
  have hsamples : groupSamples n c' g = (List.range (samplesPerByte n)).map (byteField n (c.byteAt g)) :=
    List.map_congr_left fun j hj => by
      have hj := List.mem_range.1 hj
      obtain ⟨hdiv, hmod⟩ := groupIndex_div_mod (g := g) hj
      rw [hfield _ (groupIndex_lt (hgroups.symm ▸ hg) hj), hdiv, hmod]
  have hbyte := orFields_byteField n (BitVec.ofNat 8 (c.byteAt g))
  rwa [BitVec.toNat_ofNat, Nat.mod_eq_of_lt (byteAt_lt c g), ← hsamples] at hbyte

/-! ### The length laws -/

theorem CoreError.code_ne_statusOk (e : CoreError) : e.code ≠ statusOk := by
  cases e <;> simp [CoreError.code, statusOk]

/-- On success an instruction has the length of its operation, which had no error for the length of the input. -/
theorem exec_success {s t : State} {c : Command} {i : Instr} {r : Response} (hc : s.command = some c)
    (he : exec i s = .next t) (hr : t.response = some r) (h0 : r.status = 0) :
    (operationOf i).lengthError c.n = none ∧ r.len = (operationOf i).length c.n := by
  rw [exec_eq_perform] at he
  obtain ⟨c', hc', ⟨e, -, rfl⟩ | ⟨m, hcheck, -, rfl⟩⟩ := perform_cases he
  · cases hr
    exact absurd h0 e.code_ne_statusOk
  · cases hc.symm.trans hc'
    cases hr
    refine ⟨?_, rfl⟩
    cases hl : (operationOf i).lengthError c.n with
    | none => rfl
    | some e => cases (check_of_lengthError hl _).symm.trans hcheck

/-- The OBUF of every response holds exactly the indices below `L`, whatever the instruction (R26, R53). -/
theorem exec_obuf_indices {s t : State} {c : Command} {i : Instr} {r : Response} (h : s.Performing i c)
    (he : exec i s = .next t) (hr : t.response = some r) : r.obuf.map Prod.fst = List.range r.len := by
  have ⟨_, hw, _⟩ := h
  obtain ⟨idx, f, hu⟩ := units_of hw i s.config s.draws
  obtain ⟨e, hm, -⟩ | ⟨m, hm, hholds, -⟩ := exec_done h hu
  · cases hm.symm.trans he
    cases hr
    rfl
  · cases hm.symm.trans he
    cases hr
    exact hholds.1

/-- Settles O34: both length laws are the operation's own, and `K(n) * n = 8`. -/
theorem lengthLaws : Obligations.LengthLaws := by
  refine ⟨fun s t c n pol r hc he hr h0 => ?_, fun s t c n p r hc he hr h0 => ?_⟩
  · obtain ⟨hl, hlen⟩ := exec_success hc he hr h0
    rw [operationOf_packInstr] at hl hlen
    have hn : c.n % samplesPerByte n = 0 := by
      by_contra hn
      cases (packLengthError_partial hn).symm.trans hl
    have hall : r.len * 8 = c.n * n.nbits := by
      rw [hlen, ← samplesPerByte_mul_nbits n, ← Nat.mul_assoc]
      exact congrArg (· * n.nbits) (Nat.div_mul_cancel (Nat.dvd_of_mod_eq_zero hn))
    exact ⟨by omega, hall, fun h => exec_obuf_indices h he hr⟩
  · obtain ⟨-, hlen⟩ := exec_success hc he hr h0
    rw [operationOf_unpackInstr] at hlen
    refine ⟨hlen.trans (mul_samplesPerByte_eq n c.n), ?_, fun h => exec_obuf_indices h he hr⟩
    rw [hlen, ← samplesPerByte_mul_nbits n, ← Nat.mul_assoc]
    rfl

end Sys2Proof.Machine
end

section
/-! SUPPORT. Errors (60_exceptions.md): how the command in flight is answered, one lemma a cause in the order of R176,
and what an error response leaves of the state (R179, R180). -/

namespace Sys2Proof.Machine

/-! ### What an error response changes -/

/-- An instruction ends in an error and draws nothing, or its response is OK (R170, R180). -/
theorem exec_error_or_ok {i : Instr} {s t : State} (h : exec i s = .next t) :
    (∃ e, t = s.answered (errorResponse e) 0) ∨ ∃ r, t.response = some r ∧ r.status = 0 := by
  rw [exec_eq_perform] at h
  obtain ⟨c, -, ⟨e, -, rfl⟩ | ⟨m, -, -, rfl⟩⟩ := perform_cases h
  · exact .inl ⟨e, rfl⟩
  · exact .inr ⟨_, rfl, rfl⟩

/-- So does the command in flight, whatever its word. -/
theorem runCommand_error_or_ok {s t : State} (h : runCommand s = .next t) :
    (∃ e, t = s.answered (errorResponse e) 0) ∨ ∃ r, t.response = some r ∧ r.status = 0 := by
  unfold runCommand at h
  split at h
  · cases h
  split at h
  · exact exec_error_or_ok h
  · cases h; exact .inl ⟨_, rfl⟩
  · cases h; exact .inl ⟨_, rfl⟩

/-- Settles O36: a response that is not OK is that of an error, and an error draws no free byte. -/
theorem errorResponsesAreEmpty : Obligations.ErrorResponsesAreEmpty := by
  intro s t r h hr hstatus
  obtain ⟨e, rfl⟩ | ⟨r', hr', h0⟩ := runCommand_error_or_ok h
  · cases hr
    exact ⟨⟨e, rfl⟩, rfl, rfl⟩
  · cases hr.symm.trans hr'
    exact absurd h0 hstatus

/-! ### The causes of a legal pack word -/

theorem runCommand_instr {s : State} {c : Command} {i : Instr} (hc : s.command = some c)
    (hd : decode c.cmd = .instr i) : runCommand s = exec i s := by
  simp only [runCommand, hc, hd]

/-- A word of `pack` that passes decoding is one of a legal width and policy (R72, R74). -/
theorem decode_legal_pack {w : CmdWord} (hb : ¬ badCommand w) (hw : ¬ badWidth w) (ho : cmdOp w = 1) :
    ∃ n pol, cmdNbits w = n.nbits ∧ cmdPolicy w = policyCode pol ∧ decode w = .instr (packInstr n pol) := by
  obtain ⟨h, -⟩ | ⟨h, -⟩ | ⟨-, -, h, -⟩ | ⟨-, -, -, n, pol, hn, hp, hd⟩ | ⟨-, -, h, -⟩ := decode_cases w
  · exact absurd h hb
  · exact absurd h hw
  · omega
  · exact ⟨n, pol, hn, policyOf_some hp, hd⟩
  · omega

/-- The length check of a legal `pack` word, by its width (R126). -/
theorem badLength_iff {w : CmdWord} {n : Width} {len : Nat} (hb : ¬ badCommand w) (hw : ¬ badWidth w)
    (ho : cmdOp w = 1) (hn : cmdNbits w = n.nbits) : badLength w len ↔ len % samplesPerByte n ≠ 0 := by
  rw [samplesPerByte_eq, ← hn]
  exact ⟨fun ⟨_, _, _, hl⟩ => hl, fun hl => ⟨hb, hw, ho, hl⟩⟩

theorem policyCode_eq_two {pol : Policy} : policyCode pol = 2 ↔ pol = .strict := by cases pol <;> decide

/-- Where some sample is out of range, there is a first one, which is the one reported (R173). -/
theorem exists_badSample {c : Command} {n : Width} (hb : ¬ badCommand c.cmd) (hw : ¬ badWidth c.cmd)
    (hl : ¬ badLength c.cmd c.n) (ho : cmdOp c.cmd = 1) (hn : cmdNbits c.cmd = n.nbits) (hp : cmdPolicy c.cmd = 2)
    (hbad : ∃ i, i < c.n ∧ fmask n < c.byteAt i) : ∃ i, badSample c i := by
  obtain ⟨hi, hlt⟩ := Nat.find_spec hbad
  have hlow : ∀ m, m < Nat.find hbad → c.byteAt m ≤ fmask n := fun m hm => by
    have := Nat.find_min hbad hm
    omega
  refine ⟨Nat.find hbad, hb, hw, hl, ho, hp, hi, ?_⟩
  rw [hn, ← fmask_eq]
  exact ⟨hlt, hlow⟩

/-! ### The answer for each cause, in the order of R176 -/

/-! `runCommand_badCommand` and `runCommand_badWidth` are the first two. -/

theorem runCommand_badLength {s : State} {c : Command} (hc : s.command = some c) (h : badLength c.cmd c.n) :
    runCommand s = .next (s.answered ⟨2, c.n, 0, []⟩ 0) := by
  have ⟨hb, hw, ho, _⟩ := h
  obtain ⟨n, pol, hn, -, hd⟩ := decode_legal_pack hb hw ho
  rw [runCommand_instr hc hd, exec_pack_partial pol hc ((badLength_iff hb hw ho hn).1 h)]

theorem runCommand_badSample {s : State} {c : Command} {i : Nat} (hs : s.Inv) (hc : s.command = some c)
    (h : badSample c i) : runCommand s = .next (s.answered ⟨3, i, 0, []⟩ 0) := by
  obtain ⟨hb, hw, hl, ho, hp, hi, hbad, hlow⟩ := h
  obtain ⟨n, pol, hn, hpol, hd⟩ := decode_legal_pack hb hw ho
  obtain rfl := policyCode_eq_two.1 (hpol.symm.trans hp)
  rw [badLength_iff hb hw ho hn, not_not] at hl
  rw [hn, ← fmask_eq] at hbad hlow
  rw [runCommand_instr hc hd, exec_pack_strict (performing_of_inv hs hc hd) hl hi hbad hlow]

theorem runCommand_ok {s : State} {c : Command} (hs : s.Inv) (hc : s.command = some c) (hb : ¬ badCommand c.cmd)
    (hw : ¬ badWidth c.cmd) (hl : ¬ badLength c.cmd c.n) (hi : ∀ i, ¬ badSample c i) :
    ∃ len m d, runCommand s = .next (s.answered ⟨0, 0, len, m⟩ d) := by
  obtain ⟨h, -⟩ | ⟨h, -⟩ | ⟨-, -, -, hd⟩ | ⟨-, -, ho, n, pol, hn, hp, hd⟩ | ⟨-, -, -, n, -, hd⟩ := decode_cases c.cmd
  · exact absurd h hb
  · exact absurd h hw
  · obtain ⟨m, hm, -⟩ := bitrev_done (performing_of_inv hs hc hd)
    exact ⟨_, m, _, (runCommand_instr hc hd).trans hm⟩
  · have hrange : pol = .strict → ∀ i, i < c.n → c.byteAt i ≤ fmask n := fun hpol i hin => by
      by_contra hbad
      have hp2 : cmdPolicy c.cmd = 2 := (policyOf_some hp).trans (policyCode_eq_two.2 hpol)
      obtain ⟨k, hk⟩ := exists_badSample hb hw hl ho hn hp2 ⟨i, hin, by omega⟩
      exact hi k hk
    rw [badLength_iff hb hw ho hn, not_not] at hl
    obtain ⟨m, hm, -⟩ := pack_done (performing_of_inv hs hc hd) hl hrange
    exact ⟨_, m, _, (runCommand_instr hc hd).trans hm⟩
  · obtain ⟨m, hm, -⟩ := unpack_done (performing_of_inv hs hc hd)
    exact ⟨_, m, _, (runCommand_instr hc hd).trans hm⟩

/-- Settles O35: the causes are tried in the order of R176, and a command with none of them is answered OK. -/
theorem everyCommandHasItsStatus : Obligations.EveryCommandHasItsStatus := by
  intro s c hs _ hc
  by_cases hb : badCommand c.cmd
  · exact ⟨_, _, runCommand_badCommand hc hb, rfl, .inl ⟨rfl, rfl, hb⟩⟩
  by_cases hw : badWidth c.cmd
  · exact ⟨_, _, runCommand_badWidth hc hw, rfl, .inr (.inl ⟨rfl, rfl, hw⟩)⟩
  by_cases hl : badLength c.cmd c.n
  · exact ⟨_, _, runCommand_badLength hc hl, rfl, .inr (.inr (.inl ⟨rfl, rfl, hl⟩))⟩
  by_cases hi : ∃ i, badSample c i
  · obtain ⟨i, hi⟩ := hi
    exact ⟨_, _, runCommand_badSample hs hc hi, rfl, .inr (.inr (.inr (.inl ⟨rfl, hi⟩)))⟩
  · have hnone := not_exists.1 hi
    obtain ⟨len, m, d, hrun⟩ := runCommand_ok hs hc hb hw hl hnone
    exact ⟨_, _, hrun, rfl, .inr (.inr (.inr (.inr ⟨rfl, rfl, hb, hw, hl, hnone⟩)))⟩

end Sys2Proof.Machine
end

section
/-! SUPPORT. Encoding and decoding undo each other (30_encoding.md R70, R79), so do assembling and disassembling (R83,
R85), and the call forms have their words (R84). -/

namespace Sys2Proof.Machine

/-! ### Encoding and decoding -/

theorem encode_packInstr (n : Width) (pol : Policy) :
    encode (packInstr n pol) = word n.nbits (policyCode pol) 1 := by cases n <;> cases pol <;> rfl

theorem encode_unpackInstr (n : Width) (p : Nat) : encode (unpackInstr n p) = word n.nbits p 2 := by cases n <;> rfl

theorem wf_bitrev {p n : Nat} : Instr.wf (.bitrev p n) = true ↔ p < 4 ∧ n < 256 := by
  simp [Instr.wf, fitsPolicy, fitsNbits]

theorem wf_packInstr (n : Width) (pol : Policy) : (packInstr n pol).wf = true := by cases n <;> cases pol <;> rfl

theorem wf_unpackInstr {n : Width} {p : Nat} : (unpackInstr n p).wf = true ↔ p < 4 := by
  cases n <;> simp [unpackInstr, Instr.wf, fitsPolicy]

theorem nbits_lt (n : Width) : n.nbits < 256 := by cases n <;> decide

theorem policyCode_lt (pol : Policy) : policyCode pol < 3 := by cases pol <;> decide

/-- Every word of a legal width and policy is that `pack`. -/
theorem decode_word_pack (n : Width) (pol : Policy) :
    decode (word n.nbits (policyCode pol) 1) = .instr (packInstr n pol) := by
  obtain ⟨ho, hp, hr, hn⟩ := word_fields (nbits_lt n) (Nat.lt_succ_of_lt (policyCode_lt pol)) (show 1 < 4 by decide)
  exact decode_pack hn hr hp ho

/-- Settles O10: one decoding fact for each of the three shapes of instruction. -/
theorem decodeOfEncode : Obligations.DecodeOfEncode := by
  intro i hi
  obtain ⟨p, n, rfl⟩ | ⟨n, pol, rfl⟩ | ⟨n, p, rfl⟩ := instr_cases i
  · obtain ⟨hp, hn⟩ := wf_bitrev.1 hi
    exact decode_word_bitrev hp hn
  · rw [encode_packInstr, decode_word_pack]
  · rw [encode_unpackInstr, decode_word_unpack n (wf_unpackInstr.1 hi)]

/-- Settles O11: a word that decodes has no reserved bit set, so it is put together from the fields decoding reads. -/
theorem encodeOfDecode : Obligations.EncodeOfDecode := by
  intro w i hd
  obtain ⟨-, hnbits, -, hpolicy, -⟩ := fields_eq w
  obtain ⟨-, h⟩ | ⟨-, h⟩ | ⟨hb, -, ho, h⟩ | ⟨hb, -, ho, n, pol, hn, hp, h⟩ | ⟨hb, -, ho, n, hn, h⟩ :=
    decode_cases w <;> rw [h] at hd <;> cases hd
  all_goals have hw := word_eq (cmdRsv_of_not_badCommand hb)
  · rw [ho] at hw
    exact ⟨wf_bitrev.2 ⟨hpolicy, hnbits⟩, hw⟩
  · rw [hn, policyOf_some hp, ho] at hw
    exact ⟨wf_packInstr n pol, (encode_packInstr n pol).trans hw⟩
  · rw [hn, ho] at hw
    exact ⟨wf_unpackInstr.2 hpolicy, (encode_unpackInstr n _).trans hw⟩

/-- Settles O15: the fields of each word are read off and decided. -/
theorem sampleWordsDecode : Obligations.SampleWordsDecode := by
  unfold Obligations.SampleWordsDecode
  decide

/-! ### Assembling and disassembling -/

/-- A word with no reserved bit set and OP 00 disassembles to `bitrev` (R85). -/
theorem disassemble_bitrev {w : CmdWord} (hr : cmdRsv w = 0) (ho : cmdOp w = 0) :
    disassemble w = .mnemonic .bitrev := by
  simp [disassemble, decode_bitrev hr ho, ho]

/-- A `pack` word disassembles to its width and policy, whether or not the width is legal (R85). -/
theorem disassemble_pack {w : CmdWord} {pol : Policy} (hr : cmdRsv w = 0) (hp : cmdPolicy w = policyCode pol)
    (ho : cmdOp w = 1) : disassemble w = .mnemonic (.pack (cmdNbits w) pol) := by
  cases hw : widthOf (cmdNbits w) <;> simp [disassemble, decode, hr, hp, ho, hw]

/-- An `unpack` word disassembles to its width, whether or not it is legal (R85). -/
theorem disassemble_unpack {w : CmdWord} (hr : cmdRsv w = 0) (ho : cmdOp w = 2) :
    disassemble w = .mnemonic (.unpack (cmdNbits w)) := by
  cases hw : widthOf (cmdNbits w) <;> simp [disassemble, decode, hr, ho, hw]

/-- Settles O16: the fields of an assembled word are the mnemonic's, and only a width is ever refused. -/
theorem disassembleOfAssemble : Obligations.DisassembleOfAssemble := by
  refine ⟨fun m w h => ?_, fun m => ?_⟩
  · cases m with
    | bitrev => cases h; decide
    | pack n pol =>
      obtain ⟨hle, ⟨⟩⟩ := Option.ite_none_right_eq_some.1 h
      obtain ⟨ho, hp, hr, hn⟩ := word_fields (Nat.lt_succ_of_le hle) (Nat.lt_succ_of_lt (policyCode_lt pol))
        (show 1 < 4 by decide)
      rw [disassemble_pack hr hp ho, hn]
    | unpack n =>
      obtain ⟨hle, ⟨⟩⟩ := Option.ite_none_right_eq_some.1 h
      obtain ⟨ho, -, hr, hn⟩ := word_fields (Nat.lt_succ_of_le hle) (show 0 < 4 by decide) (show 2 < 4 by decide)
      rw [disassemble_unpack hr ho, hn]
  · cases m <;> simp [Mnemonic.assemble]

/-- Settles O17: a call is its mnemonic under TRUST, whose word has NBITS in the upper byte. -/
theorem callFormsEncode : Obligations.CallFormsEncode := by
  refine ⟨rfl, fun n hn => ?_⟩
  have hword : ∀ op, word n 0 op = BitVec.ofNat 16 ((n <<< 8) + op) := fun op => by
    rw [word, Nat.shiftLeft_eq, Nat.zero_mul, Nat.add_zero]
  have hpack : (Mnemonic.pack n .trust).assemble = some (BitVec.ofNat 16 ((n <<< 8) + 0x01)) :=
    (if_pos hn).trans (congrArg some (hword 1))
  have hunpack : (Mnemonic.unpack n).assemble = some (BitVec.ofNat 16 ((n <<< 8) + 0x02)) :=
    (if_pos hn).trans (congrArg some (hword 2))
  exact ⟨hpack, hpack, hunpack, fun p => by simp [Source.expand, eq_comm]⟩

end Sys2Proof.Machine
end

section
/-! SUPPORT. How the command in flight is answered, said once for every instruction and every point of CORE's work
(10_state.md R25, R26; 20_memory.md R53; 60_exceptions.md R175), and what answering leaves of the state. -/

namespace Sys2Proof.Machine

/-! ### The checks, wherever the scan has got to -/

theorem memRead_of_read {c : Command} {i : Nat} {b : Byte} (hi : i < c.n) (h : Memory.read c.ibuf i = some b) :
    memRead c i = .ok b := by
  simp only [memRead, hi, if_true, h]

/-- Samples in range are passed over by the scan. -/
theorem scanFrom_skip {c : Command} {limit i k count : Nat}
    (h : ∀ m, i ≤ m → m < i + k → ∃ b, memRead c m = .ok b ∧ b.toNat ≤ limit) :
    scanFrom c limit i (k + count) = scanFrom c limit (i + k) count := by
  induction k generalizing i with
  | zero => rw [Nat.zero_add, Nat.add_zero]
  | succ k ih =>
    obtain ⟨b, hb, hle⟩ := h i (Nat.le_refl i) (by omega)
    rw [Nat.add_right_comm, scanFrom, hb]
    simp only [Nat.not_lt.2 hle, if_false]
    rw [← Nat.add_assoc, Nat.add_right_comm]
    exact ih fun m hm hmk => h m (by omega) (by omega)

/-- The checks answer alike from wherever the scan has got to and from its start (R36, R125). -/
theorem check_of_progressFrom {o : Operation} {s : State} {c : Command} (h : ProgressFrom o s c) :
    o.check c s.progress.scanned = o.check c 0 := by
  obtain ⟨hle, hscanned, -⟩ := h
  unfold Operation.check
  cases o.lengthError c.n with
  | some e => rfl
  | none =>
    cases hl : o.scanLimit with
    | none => rfl
    | some limit =>
      have hskip := scanFrom_skip (c := c) (limit := limit) (i := 0) (k := s.progress.scanned)
        (count := c.n - s.progress.scanned) fun m _ hm => by
          obtain ⟨b, hb, hbl⟩ := hscanned limit hl m (by omega)
          exact ⟨b, memRead_of_read (by omega) hb, hbl⟩
      rw [Nat.add_sub_cancel' hle, Nat.zero_add] at hskip
      simp only [hskip, Nat.sub_zero]

/-! ### The answer to an instruction -/

/-- How many free bytes an operation with `len` output bytes draws (R124; log 7). -/
def Operation.drawn (o : Operation) (cfg : Config) (len : Nat) : Nat := if o.draws cfg then len else 0

/-- Counting the draws and delivering is the answered state. -/
theorem drew_deliver (s : State) (o : Operation) (len : Nat) (r : Response) :
    (s.drew o len).deliver r = s.answered r (o.drawn s.config len) := by
  unfold State.drew State.deliver State.answered Operation.drawn
  split <;> rfl

/-- Only `pack` under TRUST draws, and only where OOR_TRUST_RESULT = ANY (R124). -/
theorem draws_true {i : Instr} {cfg : Config} (h : (operationOf i).draws cfg = true) :
    (∃ n, i = packInstr n .trust) ∧ cfg.oorTrust = .any := by
  obtain ⟨p, n, rfl⟩ | ⟨n, pol, rfl⟩ | ⟨n, p, rfl⟩ := instr_cases i
  · cases h
  · rw [operationOf_packInstr] at h
    obtain ⟨rfl, hany⟩ := drawsFree_iff.1 h
    exact ⟨⟨n, rfl⟩, hany⟩
  · rw [operationOf_unpackInstr] at h
    cases h

/-- Every instruction answers from any point of CORE's work: with the error its checks find, or with every byte of its
output. -/
theorem exec_outcome {s : State} {c : Command} {i : Instr} (h : s.Performing i c) {idx : Nat → List Nat}
    {f : Nat → Byte} (hu : UnitSpec (operationOf i) s.config s.draws c idx f) :
    (∃ e, (operationOf i).check c 0 = .ok (some e) ∧ exec i s = .next (s.answered (errorResponse e) 0)) ∨
    ((operationOf i).check c 0 = .ok none ∧ ∃ m,
      exec i s = .next (s.answered (okResponse ((operationOf i).length c.n) m)
        ((operationOf i).drawn s.config ((operationOf i).length c.n))) ∧
      Holds m ((operationOf i).length c.n) f) := by
  obtain ⟨hc, hw, hp⟩ := h
  rw [← check_of_progressFrom hp]
  have herror : ∀ e, (operationOf i).check c s.progress.scanned = .ok (some e) →
      ∃ e, (operationOf i).check c s.progress.scanned = .ok (some e) ∧
        exec i s = .next (s.answered (errorResponse e) 0) := fun e he => ⟨e, he, exec_of_check_error hc he⟩
  obtain ⟨e, -, he⟩ | ⟨-, hok, -⟩ | ⟨-, -, k, -, he, -⟩ := check_cases hw hp
  · exact .inl (herror e he)
  · obtain ⟨m, hm, hholds⟩ := perform_ok hc hp hu hok
    rw [drew_deliver] at hm
    exact .inr ⟨hok, m, by rw [exec_eq_perform, hm], hholds⟩
  · exact .inl (herror _ he)

/-- On success the output holds the bytes its units write. -/
theorem exec_holds {s t : State} {c : Command} {i : Instr} {r : Response} (h : s.Performing i c)
    {idx : Nat → List Nat} {f : Nat → Byte} (hu : UnitSpec (operationOf i) s.config s.draws c idx f)
    (he : exec i s = .next t) (hr : t.response = some r) (h0 : r.status = 0) :
    Holds r.obuf ((operationOf i).length c.n) f := by
  obtain ⟨e, -, hm⟩ | ⟨-, m, hm, hholds⟩ := exec_outcome h hu <;> cases hm.symm.trans he <;> cases hr
  · exact absurd h0 e.code_ne_statusOk
  · exact hholds

/-- Settles O40: an error has no OBUF byte, and the output of a success is whole. -/
theorem everyInstructionCompletes : Obligations.EveryInstructionCompletes := by
  intro s c i h
  have ⟨_, hw, _⟩ := h
  obtain ⟨idx, f, hu⟩ := units_of hw i s.config s.draws
  obtain ⟨e, -, he⟩ | ⟨-, m, he, hidx, -⟩ := exec_outcome h hu
  · exact ⟨_, _, he, rfl⟩
  · exact ⟨_, _, he, hidx⟩

/-- Settles O45: an instruction ends in its answer, an error draws nothing, and a success draws only where its
operation does. -/
theorem instructionFrame : Obligations.InstructionFrame := by
  intro s t i h
  rw [exec_eq_perform] at h
  obtain ⟨c, -, ⟨e, -, rfl⟩ | ⟨m, -, -, rfl⟩⟩ := perform_cases h
  · exact ⟨rfl, rfl, rfl, rfl, rfl, rfl, rfl, ⟨_, rfl⟩, fun _ => rfl⟩
  · refine ⟨rfl, rfl, rfl, rfl, rfl, rfl, rfl, ⟨_, rfl⟩, fun hno => ?_⟩
    have hdraws : ¬ (operationOf i).draws s.config = true := fun hd => by
      obtain ⟨⟨n, hi⟩, hany⟩ := draws_true hd
      obtain hne | hf := hno
      · exact hne n hi
      · cases hany.symm.trans hf
    rw [deliver_draws, drew_draws, if_neg hdraws]

/-- Settles O21: the reversed byte is the same byte of the table and of the formula. -/
theorem bitrevReversesEveryByte : Obligations.BitrevReversesEveryByte := fun _ _ _ _ h => bitrev_done h

/-! ### The errors of the operations' own -/

/-- An instruction's response is OK, or its STATUS is that of the error its checks find. -/
theorem exec_status {i : Instr} {s t : State} {r : Response} (he : exec i s = .next t) (hr : t.response = some r) :
    r.status = 0 ∨ ∃ c e, (operationOf i).check c s.progress.scanned = .ok (some e) ∧ r.status = e.code := by
  rw [exec_eq_perform] at he
  obtain ⟨c, -, ⟨e, hcheck, rfl⟩ | ⟨m, -, -, rfl⟩⟩ := perform_cases he <;> cases hr
  · exact .inr ⟨c, e, hcheck, rfl⟩
  · exact .inl rfl

/-- An operation with nothing to check always ends OK (R101, R150). -/
theorem exec_status_unchecked {i : Instr} {s t : State} {r : Response}
    (hi : ∀ c x, (operationOf i).check c x = .ok none) (he : exec i s = .next t) (hr : t.response = some r) :
    r.status = 0 := by
  obtain h0 | ⟨c, e, hcheck, -⟩ := exec_status he hr
  · exact h0
  · cases (hi c _).symm.trans hcheck

/-- Settles O37: `bitrev` and `unpack` check nothing, TRUST and MASK the length alone, STRICT the samples too. -/
theorem onlyTheseErrors : Obligations.OnlyTheseErrors := by
  refine fun s t r => ⟨fun p n => exec_status_unchecked fun _ _ => rfl,
    fun n p => exec_status_unchecked fun _ _ => by rw [operationOf_unpackInstr]; rfl,
    fun n pol hpol he hr => pack_status_unscanned hpol he hr, fun n he hr => ?_⟩
  obtain h0 | ⟨c, e, hcheck, hcode⟩ := exec_status he hr
  · exact .inl h0
  · obtain ⟨len, rfl⟩ | ⟨k, rfl⟩ := check_error hcheck
    · exact .inr (.inl hcode)
    · exact .inr (.inr hcode)

/-! ### The answer to the command in flight -/

theorem errorResponse_len (e : CoreError) : (errorResponse e).len = 0 := rfl

/-- A success with a whole output is a response as R26 has it. -/
theorem okResponse_wf {len : Nat} {m : Memory} {f : Nat → Byte} (h : Holds m len f) :
    (okResponse len m).wf = true := by
  simp [Response.wf, okResponse, statusOk, Memory.full_iff.2 h.1]

/-- The command in flight is answered, with a response as R26 has it and of the length HOST's duties were judged by
(logs 15, 16). -/
theorem runCommand_done {s : State} {c : Command} (hc : s.command = some c)
    (h : ∀ i, decode c.cmd = .instr i → s.Performing i c) :
    ∃ r d, runCommand s = .next (s.answered r d) ∧ r.wf = true ∧ r.len = outputLength c := by
  unfold runCommand outputLength
  rw [hc]
  dsimp only
  cases hd : decode c.cmd with
  | invalidCommand w => exact ⟨_, 0, rfl, errorResponse_wf _, rfl⟩
  | invalidBitWidth nb => exact ⟨_, 0, rfl, errorResponse_wf _, rfl⟩
  | instr i =>
    have hperf := h i hd
    have ⟨_, hw, _⟩ := hperf
    obtain ⟨idx, f, hu⟩ := units_of hw i s.config s.draws
    obtain ⟨e, hcheck, he⟩ | ⟨hcheck, m, he, hholds⟩ := exec_outcome hperf hu
    · exact ⟨_, _, he, errorResponse_wf e, by simp only [hcheck, errorResponse_len]⟩
    · exact ⟨_, _, he, okResponse_wf hholds, by simp only [hcheck, okResponse]⟩

/-- In a legal state the command in flight is answered, within `MAX_LEN` (R210). -/
theorem runCommand_of_inv {s : State} {c : Command} (hs : s.Inv) (hc : s.command = some c) :
    ∃ r d, runCommand s = .next (s.answered r d) ∧ r.wf = true ∧ s.config.allows r.len = true := by
  obtain ⟨r, d, hrun, hwf, hlen⟩ := runCommand_done hc fun i hd => performing_of_inv hs hc hd
  obtain ⟨-, hcommand, -⟩ := hs
  obtain ⟨-, -, hallows, -⟩ := hcommand c hc
  exact ⟨r, d, hrun, hwf, hlen ▸ hallows⟩

end Sys2Proof.Machine
end

section
/-! SUPPORT. HOST's turns (10_state.md R23, R27, R33; 60_exceptions.md R189; 70_reset_and_hazards.md R200 to R210): what
presenting a command, reading and reset answer, each said once. -/

namespace Sys2Proof.Machine

/-! ### Presenting a command -/

section Presenting

variable {s : State} {form : CommandForm} {input : Input} {place : Placement} {w : CmdWord} {bytes : List Byte}

/-- A busy block accepts no command (R204). -/
theorem present_busy (hb : s.busy = true) : present form input place s = .refused .commandWhileBusy := by
  simp only [present, hb, if_true]

/-- A width with no command word is refused, whatever the input (R210, log 24). -/
theorem present_no_word (hb : s.busy = false) (hw : form.cmdWord = none) :
    present form input place s = .refused .widthBeyondField := by
  simp only [present, hb, Bool.false_eq_true, if_false, hw]

/-- The previous output is refused where none is held (log 18). -/
theorem present_no_input (hb : s.busy = false) (hw : form.cmdWord = some w) (hi : input.bytes s = none) :
    present form input place s = .refused .noPreviousOutput := by
  simp only [present, hb, Bool.false_eq_true, if_false, hw, hi]

/-- A length above `MAX_LEN` is refused, that of the input or that of the output (R210). -/
theorem present_too_long (hb : s.busy = false) (hw : form.cmdWord = some w) (hi : input.bytes s = some bytes)
    (h : s.config.allows bytes.length = false ∨
      s.config.allows (outputLength ⟨w, bytes.length, Memory.ofBytes bytes⟩) = false) :
    ∃ len, s.config.allows len = false ∧ present form input place s = .refused (.lengthAboveMax len) := by
  by_cases hin : s.config.allows bytes.length = false
  · exact ⟨_, hin, by simp [present, hb, hw, hi, hin]⟩
  · have hout := h.resolve_left hin
    exact ⟨_, hout, by simp [present, hb, hw, hi, hin, hout]⟩

/-- Buffers that overlap are refused (R206). -/
theorem present_overlap (hb : s.busy = false) (hw : form.cmdWord = some w) (hi : input.bytes s = some bytes)
    (hin : s.config.allows bytes.length = true)
    (hout : s.config.allows (outputLength ⟨w, bytes.length, Memory.ofBytes bytes⟩) = true)
    (h : place.overlaps bytes.length (outputLength ⟨w, bytes.length, Memory.ofBytes bytes⟩) = true) :
    present form input place s = .refused .buffersOverlap := by
  simp [present, hb, hw, hi, hin, hout, h]

/-- An idle block accepts a command that keeps HOST's duties (R23). -/
theorem present_accept (hb : s.busy = false) (hw : form.cmdWord = some w) (hi : input.bytes s = some bytes)
    (hin : s.config.allows bytes.length = true)
    (hout : s.config.allows (outputLength ⟨w, bytes.length, Memory.ofBytes bytes⟩) = true)
    (h : place.overlaps bytes.length (outputLength ⟨w, bytes.length, Memory.ofBytes bytes⟩) = false) :
    present form input place s = .next (s.accept ⟨w, bytes.length, Memory.ofBytes bytes⟩) := by
  simp [present, hb, hw, hi, hin, hout, h]

end Presenting

@[simp] theorem bytes_dropTurn (input : Input) (s : State) (ts : List Turn) :
    input.bytes (s.dropTurn ts) = input.bytes s := by cases input <;> rfl

/-- A step on a turn of HOST. -/
theorem step_host {s : State} {a : HostAction} {rest : List Turn} (h : s.turns = .host a :: rest) :
    step s = hostTurn a (s.dropTurn rest) := step_cons h

theorem step_present {s : State} {form : CommandForm} {input : Input} {place : Placement} {rest : List Turn}
    (h : s.turns = .host (.present form input place) :: rest) :
    step s = present form input place (s.dropTurn rest) := step_host h

/-- Two buffers with a shared address overlap (R69, R206). -/
theorem overlaps_shared {ibufAt obufAt inLen outLen a : Nat} (h1 : ibufAt ≤ a) (h2 : a < ibufAt + inLen)
    (h3 : obufAt ≤ a) (h4 : a < obufAt + outLen) : (Placement.shared ibufAt obufAt).overlaps inLen outLen = true := by
  simp only [Placement.overlaps, decide_eq_true_eq]
  omega

/-- A written width above 255 has no command word (R74, R210). -/
theorem cmdWord_wide {n : Nat} {t : Source} (hn : 255 < n)
    (h : t = .packCall n ∨ t = .unpackCall n ∨ t = .unpack n ∨ ∃ pol, t = .pack n pol) :
    (CommandForm.written t).cmdWord = none := by
  have hpack : ∀ pol, (Mnemonic.pack n pol).assemble = none := fun _ => if_neg (Nat.not_le.2 hn)
  have hunpack : (Mnemonic.unpack n).assemble = none := if_neg (Nat.not_le.2 hn)
  obtain rfl | rfl | rfl | ⟨none | pol, rfl⟩ := h
  · exact hpack .trust
  · exact hunpack
  · exact hunpack
  · exact hpack .trust
  · exact hpack pol

/-- Settles O4: presenting is accepted or refused by BUSY, and an answer clears BUSY. -/
theorem busyProtocol : Obligations.BusyProtocol := by
  refine ⟨fun s form input place w bytes rest ht hb hw hi hin hout hover => ?_,
    fun s form input place rest ht hb => ?_, fun s t h => ?_, rfl⟩
  · rw [step_present ht]
    exact present_accept hb hw (by rwa [bytes_dropTurn]) hin hout hover
  · rw [step_present ht]
    exact present_busy hb
  · obtain ⟨r, d, rfl⟩ := runCommand_cases h
    exact ⟨rfl, r, rfl⟩

/-- Settles O5: each duty is tested where the violation happens, and no test lets it pass. -/
theorem hostDutyViolationsStop : Obligations.HostDutyViolationsStop := by
  refine ⟨fun s c i b rest ht hb hc hi hne => ?_, fun s j rest ht hb => ?_,
    fun s form input w bytes ibufAt obufAt a rest ht hb hw hi hin hout h1 h2 h3 h4 => ?_,
    fun s form input w bytes place rest ht hb hw hi hlen => ?_, fun s n t input place rest ht hb hn hwide => ?_⟩
  · rw [step_host ht]
    simp [hostTurn, changeInput, hb, hc, hi, hne]
  · rw [step_host ht]
    simp [hostTurn, hostRead, hb]
  · rw [step_present ht]
    exact present_overlap hb hw (by rwa [bytes_dropTurn]) hin hout (overlaps_shared h1 h2 h3 h4)
  · rw [step_present ht]
    exact present_too_long (s := s.dropTurn rest) hb hw (by rwa [bytes_dropTurn]) hlen
  · rw [step_present ht]
    exact present_no_word hb (cmdWord_wide hn hwide)

/-- A whole buffer has as many bytes as indices. -/
theorem Memory.length_of_full {m : Memory} {len : Nat} (h : Memory.full m len = true) : m.length = len := by
  simpa using congrArg List.length (Memory.full_iff.1 h)

/-- STATUS and OBUF of a response as R26 and R170 have it. -/
theorem Response.wf_parts {r : Response} (h : r.wf = true) :
    r.status.toNat ≤ statusMax ∧ Memory.full r.obuf r.len = true := by
  simp only [Response.wf, Bool.and_eq_true, decide_eq_true_eq] at h
  exact h.1

/-- Settles O6: the OBUF of a response is the buffer of its own bytes. -/
theorem previousOutputIsTheNextInput : Obligations.PreviousOutputIsTheNextInput := by
  refine ⟨fun s w r rest ht hb hr hwf hin hout => ?_, fun s w place rest ht hb hr => ?_⟩
  · obtain ⟨-, hfull⟩ := Response.wf_parts hwf
    have hcommand : (⟨w, (Memory.bytes r.obuf).length, Memory.ofBytes (Memory.bytes r.obuf)⟩ : Command) =
        ⟨w, r.len, r.obuf⟩ := by
      rw [Memory.ofBytes_bytes hfull, Memory.bytes, List.length_map, Memory.length_of_full hfull]
    have hlen : (Memory.bytes r.obuf).length = r.len := congrArg Command.n hcommand
    refine ⟨_, (step_present ht).trans (present_accept (bytes := Memory.bytes r.obuf) hb rfl ?_ ?_ ?_ rfl), rfl, ?_⟩
    · rw [bytes_dropTurn, Input.bytes, hr]
      rfl
    · rwa [hlen]
    · rwa [hcommand]
    · rw [accept_command, hcommand]
  · rw [step_present ht]
    refine present_no_input hb rfl ?_
    rw [bytes_dropTurn, Input.bytes, hr]
    rfl

/-! ### Reading -/

/-- What HOST reads is a function of BUSY, the response and an abandoned OBUF (R33, R36). -/
theorem hostRead_congr {s t : State} (hb : t.busy = s.busy) (hr : t.response = s.response)
    (ha : t.abandoned = s.abandoned) (what : HostRead) : hostRead what t = hostRead what s := by
  cases what <;> simp only [hostRead, readResponse, hb, hr, ha]

@[simp] theorem hostRead_dropTurn (what : HostRead) (s : State) (ts : List Turn) :
    hostRead what (s.dropTurn ts) = hostRead what s := hostRead_congr rfl rfl rfl what

theorem step_read_ok {s : State} {what : HostRead} {rest : List Turn} {v : Nat}
    (ht : s.turns = .host (.read what) :: rest) (h : hostRead what s = .ok v) :
    step s = .next { s with turns := rest, hostSaw := some v } := by
  rw [step_host ht, hostTurn, hostRead_dropTurn, h]
  rfl

theorem step_read_error {s : State} {what : HostRead} {rest : List Turn} {f : Fault}
    (ht : s.turns = .host (.read what) :: rest) (h : hostRead what s = .error f) : step s = .fault f := by
  rw [step_host ht, hostTurn, hostRead_dropTurn, h]

/-- STATUS of a response that is held: 0 to 4 are read (R170), others stop the model (log 21). -/
theorem hostRead_status {s : State} {r : Response} (hr : s.response = some r) :
    hostRead .status s =
      if r.status.toNat ≤ statusMax then .ok r.status.toNat else .error (.illegalStatus r.status.toNat) := by
  simp only [hostRead, readResponse, hr, readStatus]

theorem hostRead_errinfo {s : State} {r : Response} (hr : s.response = some r) :
    hostRead .errinfo s = .ok r.errinfo := by
  simp only [hostRead, readResponse, hr]

theorem hostRead_length {s : State} {r : Response} (hr : s.response = some r) :
    hostRead .length s = .ok r.len := by
  simp only [hostRead, readResponse, hr]

/-- An OBUF index below `L` has a byte, which HOST reads (R50). -/
theorem hostRead_output {s : State} {r : Response} {j : Nat} (hr : s.response = some r) (hb : s.busy = false)
    (hwf : r.wf = true) (hj : j < r.len) :
    ∃ b, Memory.read r.obuf j = some b ∧ hostRead (.output j) s = .ok b.toNat := by
  obtain ⟨-, hfull⟩ := Response.wf_parts hwf
  obtain ⟨b, hread⟩ := Memory.read_of_full hfull hj
  exact ⟨b, hread, by simp [hostRead, readResponse, readOutput, hr, hb, hread]⟩

/-- An OBUF index at or above `L` has none (log 11). -/
theorem hostRead_output_beyond {s : State} {r : Response} {j : Nat} (hr : s.response = some r) (hb : s.busy = false)
    (hwf : r.wf = true) (hj : r.len ≤ j) : hostRead (.output j) s = .error (.noOutputByte j) := by
  obtain ⟨-, hfull⟩ := Response.wf_parts hwf
  simp [hostRead, readResponse, readOutput, hr, hb, Memory.read_none_of_full hfull hj]

/-- A byte of an abandoned OBUF (R202). -/
theorem hostRead_abandoned {s : State} {m : Memory} {j : Nat} (ha : s.abandoned = some m)
    (hfull : Memory.full m m.length = true) (hj : j < m.length) :
    ∃ b, Memory.read m j = some b ∧ hostRead (.abandoned j) s = .ok b.toNat := by
  obtain ⟨b, hread⟩ := Memory.read_of_full hfull hj
  exact ⟨b, hread, by simp only [hostRead, ha, hread]⟩

/-- Settles O7: a reading step does what the read does, and each field is read from the response or the abandoned
OBUF that is held. -/
theorem hostReadsTheResponse : Obligations.HostReadsTheResponse := by
  refine ⟨fun s what rest ht => ⟨fun v => step_read_ok ht, fun f => step_read_error ht⟩,
    fun s r hr hb hwf => ⟨?_, hostRead_errinfo hr, hostRead_length hr, fun j => hostRead_output hr hb hwf,
      fun j => hostRead_output_beyond hr hb hwf⟩,
    fun s r hr hstatus => ?_, fun s => ?_,
    fun s m ha hfull => ⟨fun j => hostRead_abandoned ha hfull, fun j hj => ?_⟩, fun s j ha => ?_⟩
  · obtain ⟨hle, -⟩ := Response.wf_parts hwf
    rw [hostRead_status hr, if_pos hle]
  · rw [hostRead_status hr, if_neg (show ¬ r.status.toNat ≤ statusMax from Nat.not_le.2 hstatus)]
  · cases hb : s.busy <;> simp [hostRead, hb]
  · simp only [hostRead, ha, Memory.read_none_of_full hfull hj]
  · simp only [hostRead, ha]

/-! ### Reset -/

/-- The free bytes of an abandoned OBUF are numbered from the counter on (log 8). -/
theorem holds_freeBytes (draws len : Nat) :
    Holds (freeBytes draws len) len (fun j => Config.freeByte (draws + j)) := by
  refine ⟨Memory.full_iff.1 ?_, fun j hj => ?_⟩
  · simpa [freeBytes] using Memory.full_ofBytes ((List.range len).map fun j => Config.freeByte (draws + j))
  · simp [freeBytes, hj]

/-- Reset in the middle of a command leaves free bytes where its OBUF was (R202). -/
theorem resetEvent_of_busy {s : State} {c : Command} (hb : s.busy = true) (hc : s.command = some c) :
    (resetEvent s).abandoned = some (freeBytes s.draws (outputLength c)) ∧
      (resetEvent s).draws = s.draws + outputLength c := by
  simp only [resetEvent, hb, hc, and_self]

/-- Reset of an idle block abandons nothing. -/
theorem resetEvent_of_idle {s : State} (hb : s.busy = false) :
    (resetEvent s).abandoned = none ∧ (resetEvent s).draws = s.draws := by
  simp only [resetEvent, hb, State.reset, and_self]

theorem step_reset {s : State} {rest : List Turn} (h : s.turns = .host .reset :: rest) :
    step s = .next (resetEvent (s.dropTurn rest)) := step_host h

/-- Settles O2: the fields that reset clears and the fields that it keeps. -/
theorem resetAbandonsTheCommand : Obligations.ResetAbandonsTheCommand := by
  intro s rest ht
  refine ⟨_, step_reset ht, ?_⟩
  simp only [resetEvent_busy, resetEvent_command, resetEvent_progress, resetEvent_response, resetEvent_config,
    resetEvent_turns, resetEvent_hostSaw, dropTurn_config, dropTurn_turns, dropTurn_hostSaw, true_and]
  intro hb
  obtain ⟨ha, hd⟩ := resetEvent_of_idle (s := s.dropTurn rest) hb
  exact ⟨hd, ha⟩

/-- Settles O3: the abandoned OBUF is free bytes, as many as the response would have had. -/
theorem abandonedOutputIsFree : Obligations.AbandonedOutputIsFree := by
  intro s c rest ht hb hc
  obtain ⟨ha, hd⟩ := resetEvent_of_busy (s := s.dropTurn rest) hb hc
  exact ⟨_, _, step_reset ht, resetEvent_response _, ha, holds_freeBytes _ _, hd⟩

/-- No instruction has a meaning where no command is held (log 26). -/
theorem exec_of_no_command {s : State} (h : s.command = none) (i : Instr) : exec i s = .fault .noCommandHeld := by
  rw [exec_eq_perform, perform, h]

theorem readResponse_none {s : State} (h : s.response = none) (field : Response → Except Fault Nat) :
    readResponse s field = .error .noResponseHeld := by
  rw [readResponse, h]

/-- No field of the response is read where none is held (log 11). -/
theorem hostRead_of_no_response {s : State} (h : s.response = none) {j : Nat} {what : HostRead}
    (hw : what ∈ [HostRead.status, .errinfo, .length, .output j]) : ∃ f, hostRead what s = .error f := by
  simp only [List.mem_cons, List.not_mem_nil, or_false] at hw
  obtain rfl | rfl | rfl | rfl := hw
  · exact ⟨_, readResponse_none h _⟩
  · exact ⟨_, readResponse_none h _⟩
  · exact ⟨_, readResponse_none h _⟩
  · by_cases hb : s.busy = true
    · exact ⟨_, if_pos hb⟩
    · exact ⟨_, (if_neg hb).trans (readResponse_none h _)⟩

/-- Settles O1: the tables have their contents, and what is not held is not read. -/
theorem resetHoldsNothing : Obligations.ResetHoldsNothing :=
  ⟨rfl, rfl, rfl, brlutAt_eq, fun n => by cases n <;> rfl, fun _ h _ _ => hostRead_of_no_response h,
    fun _ h => exec_of_no_command h⟩

/-! ### CORE's response -/

/-- Where no turn is listed, a busy block answers (log 5). -/
theorem step_unlisted {s : State} (ht : s.turns = []) (hb : s.busy = true) : step s = runCommand s := by
  rw [step_nil ht, noTurn, if_pos hb]

/-- So it does on CORE's answering turn. -/
theorem step_respond {s : State} {rest : List Turn} (ht : s.turns = .core .respond :: rest) (hb : s.busy = true) :
    step s = runCommand (s.dropTurn rest) := by
  rw [step_cons ht, takeTurn, coreTurn, dropTurn_busy, if_pos hb]

/-- Settles O8: both ways to the answer perform what the word decodes to. -/
theorem stepRunsTheDecodedCommand : Obligations.StepRunsTheDecodedCommand := by
  refine fun s c hb hc => ⟨fun i hd => ⟨fun ht => ?_, fun rest ht => ?_⟩, fun e he ht => ?_⟩
  · rw [step_unlisted ht hb, runCommand_instr hc hd]
  · rw [step_respond ht hb]
    exact runCommand_instr hc hd
  · rw [step_unlisted ht hb]
    obtain ⟨hd, rfl⟩ | ⟨nb, hd, rfl⟩ := he <;> simp only [runCommand, hc, hd] <;> rfl

/-- Settles O9: the placed word is held, and CORE's answer is the first turn. -/
theorem fetchedWordIsPerformedNext : Obligations.FetchedWordIsPerformedNext := by
  intro s w i hd
  rw [step_respond rfl rfl, runCommand_instr (c := commandFor s (BitVec.ofNat 16 w)) rfl]
  · rfl
  · rw [← hd]
    cases hc : s.command <;> simp only [commandFor, hc]

end Sys2Proof.Machine
end

section
/-! SUPPORT. The invariant of the machine: each operation that changes the state keeps it, so every step does; and in a
legal state every turn that keeps HOST's duties has a next state (70_reset_and_hazards.md R204 to R212). -/

namespace Sys2Proof.Machine

/-! ### What each operation keeps -/

/-- The turns to come are no part of the invariant. -/
theorem inv_dropTurn {s : State} {ts : List Turn} : (s.dropTurn ts).Inv ↔ s.Inv := Iff.rfl

/-- Nor is what HOST has read. -/
theorem inv_hostSaw {s : State} {v : Option Nat} : { s with hostSaw := v }.Inv ↔ s.Inv := Iff.rfl

/-- CORE's progress may be any part of the work of the command in flight. -/
theorem inv_progress {s : State} {c : Command} {i : Instr} {p : Progress} (hs : s.Inv) (hc : s.command = some c)
    (hd : decode c.cmd = .instr i) (hp : ProgressFrom (operationOf i) { s with progress := p } c) :
    { s with progress := p }.Inv := by
  obtain ⟨hbusy, hcommand, -, hresponse, habandoned⟩ := hs
  obtain ⟨hw, hin, hout, hnor, hnoa, -⟩ := hcommand c hc
  refine ⟨hbusy, fun c' hc' => ?_, fun hnone => ?_, hresponse, habandoned⟩
  · cases hc.symm.trans hc'
    refine ⟨hw, hin, hout, hnor, hnoa, ?_⟩
    dsimp only
    rw [hd]
    exact hp
  · cases hc.symm.trans hnone

/-- One more sample in range is part of the work of the scan (R36, R125). -/
theorem progressFrom_scan {o : Operation} {s : State} {c : Command} {limit : Nat} {b : Byte} (h : ProgressFrom o s c)
    (hl : o.scanLimit = some limit) (hlt : s.progress.scanned < c.n) (hb : memRead c s.progress.scanned = .ok b)
    (hle : b.toNat ≤ limit) :
    ProgressFrom o { s with progress := { s.progress with scanned := s.progress.scanned + 1 } } c := by
  obtain ⟨-, hscanned, hnodup, hunits, hmay, hrun⟩ := h
  have hread : Memory.read c.ibuf s.progress.scanned = some b := by
    simp only [memRead, hlt, if_true] at hb
    split at hb <;> cases hb
    assumption
  refine ⟨hlt, fun limit' hl' i hi => ?_, hnodup, hunits, fun hdone => ?_, hrun⟩
  · cases hl.symm.trans hl'
    obtain hlast | hbefore := Nat.eq_or_lt_of_le (Nat.le_of_lt_succ hi)
    · exact ⟨b, by rw [hlast, hread], hle⟩
    · exact hscanned limit hl i hbefore
  · have hold := hmay hdone
    simp only [Operation.mayWrite, Bool.and_eq_true, Bool.or_eq_true, decide_eq_true_eq] at hold ⊢
    exact ⟨hold.1, hold.2.imp_right Nat.le_succ_of_le⟩

/-- One more unit is part of the work of the units, where the checks have passed (R60, R177). -/
theorem progressFrom_unit {o : Operation} {s : State} {c : Command} {u : Nat} {cells : List Host.Cell}
    (h : ProgressFrom o s c) (hm : o.mayWrite c s.progress.scanned = true) (hu : u < o.units c.n)
    (hnew : u ∉ s.progress.done) (hcells : o.unit s.config s.draws c u = .ok cells) :
    ProgressFrom o { s with progress := { s.progress with
      done := s.progress.done ++ [u]
      written := writeCells s.progress.written cells } } c := by
  obtain ⟨hle, hscanned, hnodup, hunits, -, hrun⟩ := h
  refine ⟨hle, hscanned, List.nodup_append.2 ⟨hnodup, List.nodup_singleton u, fun a ha b hb => ?_⟩, fun v hv => ?_,
    fun _ => hm, runUnits_snoc hrun hcells⟩
  · rintro rfl
    exact hnew (List.mem_singleton.1 hb ▸ ha)
  · obtain hold | hlast := List.mem_append.1 hv
    · exact hunits v hold
    · exact List.mem_singleton.1 hlast ▸ hu

/-- An answered block is idle with nothing in progress, and holds a response as R26 has it. -/
theorem inv_answered {s : State} {r : Response} {d : Nat} (hs : s.Inv) (hwf : r.wf = true)
    (hlen : s.config.allows r.len = true) : (s.answered r d).Inv := by
  obtain ⟨-, -, -, -, habandoned⟩ := hs
  refine ⟨rfl, fun c hc => ?_, fun _ => rfl, fun r' hr' => ?_, habandoned⟩
  · cases hc
  · cases hr'
    exact ⟨hwf, hlen⟩

/-- A block that has just accepted a command within `MAX_LEN` holds it whole, and no work is done. -/
theorem inv_accept {s : State} {c : Command} (hw : c.wf = true) (hin : s.config.allows c.n = true)
    (hout : s.config.allows (outputLength c) = true) : (s.accept c).Inv := by
  refine ⟨rfl, fun c' hc' => ?_, fun h => ?_, fun r h => ?_, fun m h => ?_⟩
  · cases hc'
    refine ⟨hw, hin, hout, rfl, rfl, ?_⟩
    cases decode c.cmd with
    | instr i => exact progressFrom_empty _ _ _ rfl
    | invalidCommand w => rfl
    | invalidBitWidth nb => rfl
  all_goals cases h

/-- After reset nothing is held but the free bytes of the command it cut short (R200, R202). -/
theorem inv_reset {s : State} (hs : s.Inv) : (resetEvent s).Inv := by
  obtain ⟨hbusy, hcommand, -⟩ := hs
  have habandoned : ∀ m, (resetEvent s).abandoned = some m →
      Memory.full m m.length = true ∧ s.config.allows m.length = true := fun m hm => by
    cases hc : s.command with
    | none =>
      rw [hc] at hbusy
      cases (resetEvent_of_idle hbusy).1.symm.trans hm
    | some c =>
      rw [hc] at hbusy
      cases (resetEvent_of_busy hbusy hc).1.symm.trans hm
      obtain ⟨-, -, hallows, -⟩ := hcommand c hc
      have hfull := Memory.full_iff.2 (holds_freeBytes s.draws (outputLength c)).1
      rw [Memory.length_of_full hfull]
      exact ⟨hfull, hallows⟩
  refine ⟨?_, fun c hc => ?_, fun _ => resetEvent_progress s, fun r hr => ?_, fun m hm => ?_⟩
  · rw [resetEvent_busy, resetEvent_command]
    rfl
  · cases (resetEvent_command s).symm.trans hc
  · cases (resetEvent_response s).symm.trans hr
  · rw [resetEvent_config]
    exact habandoned m hm

/-- Settles O48: after reset no field is held. -/
theorem resetIsLegal : Obligations.ResetIsLegal := by
  refine ⟨rfl, fun c h => ?_, fun _ => rfl, fun r h => ?_, fun m h => ?_⟩ <;> cases h

/-! ### Every step keeps it -/

/-- In a legal state CORE is in its work on the instruction in flight. -/
theorem progressFrom_of_inFlight {s : State} {c : Command} {o : Operation} (hs : s.Inv)
    (h : s.inFlight = some (c, o)) :
    ∃ i, s.command = some c ∧ decode c.cmd = .instr i ∧ o = operationOf i ∧ c.wf = true ∧
      ProgressFrom (operationOf i) s c := by
  obtain ⟨hc, i, hd, ho⟩ := inFlight_some h
  obtain ⟨-, hw, hp⟩ := performing_of_inv hs hc hd
  exact ⟨i, hc, hd, ho, hw, hp⟩

theorem runCommand_inv {s t : State} (hs : s.Inv) (h : runCommand s = .next t) : t.Inv := by
  cases hc : s.command with
  | none =>
    rw [runCommand, hc] at h
    cases h
  | some c =>
    obtain ⟨r, d, hrun, hwf, hlen⟩ := runCommand_of_inv hs hc
    cases hrun.symm.trans h
    exact inv_answered hs hwf hlen

theorem coreTurn_inv {ct : CoreTurn} {s t : State} (hs : s.Inv) (h : coreTurn ct s = .next t) : t.Inv := by
  unfold coreTurn at h
  split at h
  · cases ct with
    | scan =>
      obtain rfl | ⟨c, o, limit, b, hf, -, hl, hlt, hb, hle, rfl⟩ := scanOne_cases h
      · exact hs
      · obtain ⟨i, hc, hd, rfl, -, hp⟩ := progressFrom_of_inFlight hs hf
        exact inv_progress hs hc hd (progressFrom_scan hp hl hlt hb hle)
    | unit u =>
      obtain rfl | ⟨c, o, cells, hf, hm, hu, hnew, hcells, rfl⟩ := computeUnit_cases h
      · exact hs
      · obtain ⟨i, hc, hd, rfl, -, hp⟩ := progressFrom_of_inFlight hs hf
        exact inv_progress hs hc hd (progressFrom_unit hp hm hu hnew hcells)
    | respond => exact runCommand_inv hs h
  · cases h
    exact hs

theorem hostTurn_inv {a : HostAction} {s t : State} (hs : s.Inv) (h : hostTurn a s = .next t) : t.Inv := by
  cases a with
  | present form input place =>
    obtain ⟨-, w, bytes, -, -, hin, hout, -, rfl⟩ := present_cases h
    exact inv_accept (Memory.full_ofBytes bytes) hin hout
  | read what =>
    simp only [hostTurn] at h
    split at h <;> cases h
    exact inv_hostSaw.2 hs
  | changeInput i b =>
    obtain rfl := changeInput_eq h
    exact hs
  | reset =>
    cases h
    exact inv_reset hs

theorem takeTurn_inv {tn : Turn} {s t : State} (hs : s.Inv) (h : takeTurn tn s = .next t) : t.Inv := by
  cases tn with
  | host a => exact hostTurn_inv hs h
  | core ct => exact coreTurn_inv hs h

/-- Settles O49: every turn keeps the invariant, and so does the answer where no turn is listed. -/
theorem stepKeepsTheInvariant : Obligations.StepKeepsTheInvariant := by
  intro s t hs h
  cases ht : s.turns with
  | nil =>
    rw [step_nil ht, noTurn] at h
    split at h
    · exact runCommand_inv hs h
    · cases h
      exact hs
  | cons tn rest =>
    rw [step_cons ht] at h
    exact takeTurn_inv (inv_dropTurn.2 hs) h

/-! ### Every dutiful turn has a next state -/

theorem runCommand_total {s : State} (hs : s.Inv) (hb : s.busy = true) :
    ∃ r d, runCommand s = .next (s.answered r d) := by
  have ⟨hbusy, _⟩ := hs
  obtain ⟨c, hc⟩ := Option.isSome_iff_exists.1 (hbusy.symm.trans hb)
  obtain ⟨r, d, hrun, -⟩ := runCommand_of_inv hs hc
  exact ⟨r, d, hrun⟩

/-- The samples of a legal state are there to be scanned (R53). -/
theorem scanOne_total {s : State} (hs : s.Inv) : ∃ t, scanOne s = .next t := by
  unfold scanOne
  cases hf : s.inFlight with
  | none => exact ⟨s, rfl⟩
  | some co =>
    obtain ⟨c, o⟩ := co
    obtain ⟨i, -, -, -, hw, -⟩ := progressFrom_of_inFlight hs hf
    dsimp only
    split
    · split
      · obtain ⟨b, hb, -⟩ := memRead_ok hw ‹_›
        simp only [hb]
        split <;> exact ⟨_, rfl⟩
      · exact ⟨s, rfl⟩
    · exact ⟨s, rfl⟩

/-- Every unit of the command in flight can be computed (R53). -/
theorem computeUnit_total {s : State} (hs : s.Inv) (u : Nat) : ∃ t, computeUnit u s = .next t := by
  unfold computeUnit
  cases hf : s.inFlight with
  | none => exact ⟨s, rfl⟩
  | some co =>
    obtain ⟨c, o⟩ := co
    obtain ⟨i, -, -, rfl, hw, -⟩ := progressFrom_of_inFlight hs hf
    dsimp only
    split
    · obtain ⟨idx, f, hunits⟩ := units_of hw i s.config s.draws
      rename_i hdue
      obtain ⟨-, hlt, -⟩ := hdue
      simp only [hunits.cells u hlt]
      exact ⟨_, rfl⟩
    · exact ⟨s, rfl⟩

theorem coreTurn_total {s : State} (hs : s.Inv) (ct : CoreTurn) : ∃ t, coreTurn ct s = .next t := by
  unfold coreTurn
  split
  · cases ct with
    | scan => exact scanOne_total hs
    | unit u => exact computeUnit_total hs u
    | respond =>
      obtain ⟨r, d, hrun⟩ := runCommand_total hs ‹_›
      exact ⟨_, hrun⟩
  · exact ⟨s, rfl⟩

/-- A read that keeps HOST's duties has a value (R202, R207). -/
theorem hostRead_total {s : State} {what : HostRead} (hs : s.Inv) (hk : (HostAction.read what).keepsDuty s) :
    ∃ v, hostRead what s = .ok v := by
  obtain ⟨-, -, -, hresponse, -⟩ := hs
  cases what with
  | busy => exact ⟨_, rfl⟩
  | status =>
    obtain ⟨r, hr⟩ := Option.isSome_iff_exists.1 hk
    obtain ⟨hle, -⟩ := Response.wf_parts (hresponse r hr).1
    exact ⟨_, (hostRead_status hr).trans (if_pos hle)⟩
  | errinfo =>
    obtain ⟨r, hr⟩ := Option.isSome_iff_exists.1 hk
    exact ⟨_, hostRead_errinfo hr⟩
  | length =>
    obtain ⟨r, hr⟩ := Option.isSome_iff_exists.1 hk
    exact ⟨_, hostRead_length hr⟩
  | output j =>
    obtain ⟨hb, r, hr, hj⟩ := hk
    obtain ⟨b, -, hread⟩ := hostRead_output hr hb (hresponse r hr).1 hj
    exact ⟨_, hread⟩
  | abandoned j => exact hk.elim

theorem hostTurn_total {s : State} {a : HostAction} (hs : s.Inv) (hk : a.keepsDuty s) :
    ∃ t, hostTurn a s = .next t := by
  cases a with
  | present form input place =>
    obtain ⟨hb, w, bytes, hw, hi, hin, hout, hover⟩ := hk
    exact ⟨_, present_accept hb hw hi hin hout hover⟩
  | read what =>
    obtain ⟨v, hv⟩ := hostRead_total hs hk
    exact ⟨{ s with hostSaw := some v }, by simp only [hostTurn, hv]⟩
  | changeInput i b =>
    refine ⟨s, ?_⟩
    simp only [hostTurn, changeInput]
    cases hc : s.command with
    | none => rfl
    | some c => exact if_neg fun ⟨hb, hi, hne⟩ => hne (hk c hb hc hi)
  | reset => exact ⟨_, rfl⟩

theorem takeTurn_total {s : State} {tn : Turn} (hs : s.Inv) (hk : tn.keepsDuty s) : ∃ t, takeTurn tn s = .next t := by
  cases tn with
  | host a => exact hostTurn_total hs hk
  | core ct => exact coreTurn_total hs ct

/-- HOST's duties do not depend on the turns to come. -/
theorem keepsDuty_dropTurn {s : State} {tn : Turn} {ts : List Turn} (h : tn.keepsDuty s) :
    tn.keepsDuty (s.dropTurn ts) := by
  cases tn with
  | core ct => trivial
  | host a =>
    cases a with
    | present form input place =>
      simpa only [Turn.keepsDuty, HostAction.keepsDuty, dropTurn_busy, dropTurn_config, bytes_dropTurn] using h
    | read what => cases what <;> exact h
    | changeInput i b => exact h
    | reset => trivial

/-- Settles O50: a legal state answers every turn that keeps the duties; the rest is the invariant, and what `Dutiful`
says of the state after the turn. -/
theorem dutifulHostNeverStops : Obligations.DutifulHostNeverStops := by
  intro s hs hduty
  cases ht : s.turns with
  | nil =>
    by_cases hb : s.busy = true
    · obtain ⟨r, d, hrun⟩ := runCommand_total hs hb
      have hstep := (step_unlisted ht hb).trans hrun
      have hturns : (s.answered r d).turns = [] := ht
      refine ⟨_, hstep, stepKeepsTheInvariant s _ hs hstep, hturns, ?_⟩
      rw [hturns]
      trivial
    · refine ⟨s, ?_, hs, ht, hduty⟩
      rw [step_nil ht, noTurn, if_neg hb]
  | cons tn rest =>
    rw [ht] at hduty
    obtain ⟨hk, hrest⟩ := hduty
    obtain ⟨t, htake⟩ := takeTurn_total (inv_dropTurn.2 hs) (keepsDuty_dropTurn (ts := rest) hk)
    have hturns : t.turns = rest := takeTurn_turns htake
    refine ⟨t, (step_cons ht).trans htake, takeTurn_inv (inv_dropTurn.2 hs) htake, hturns, ?_⟩
    rw [hturns]
    exact hrest t htake

/-- Settles O47: a step is an acceptance, an answer, a reset, or a change of CORE's progress or of what HOST has
read. -/
theorem parametersNeverChange : Obligations.ParametersNeverChange := by
  intro s t h
  obtain ⟨-, c, rfl⟩ | ⟨-, r, d, rfl⟩ | rfl | ⟨p, v, rfl⟩ := step_cases h
  · rfl
  · rfl
  · rw [resetEvent_config, dropTurn_config]
  · rfl

/-- A scan or a unit turn goes on with CORE's hidden work alone. -/
theorem coreTurn_hidden {ct : CoreTurn} {s t : State} (hct : ct ≠ .respond) (h : coreTurn ct s = .next t) :
    t = { s with progress := t.progress } := by
  unfold coreTurn at h
  split at h
  · cases ct with
    | scan => obtain rfl | ⟨_, _, _, _, _, _, _, _, _, _, rfl⟩ := scanOne_cases h <;> rfl
    | unit u => obtain rfl | ⟨_, _, _, _, _, _, _, _, rfl⟩ := computeUnit_cases h <;> rfl
    | respond => exact absurd rfl hct
  · cases h
    rfl

/-- Settles O44: HOST reads no field of CORE's progress. -/
theorem hiddenWorkIsInvisible : Obligations.HiddenWorkIsInvisible := by
  intro s t ct hct h
  have ht := coreTurn_hidden hct h
  exact ⟨ht, fun what => (congrArg (hostRead what) ht).trans (hostRead_congr rfl rfl rfl what)⟩

/-! ### Every accepted command is answered -/

/-- A turn that is no reset leaves a busy block busy, or answers its command. -/
theorem takeTurn_of_busy {tn : Turn} {s t : State} (hb : s.busy = true) (htn : tn ≠ .host .reset)
    (h : takeTurn tn s = .next t) : t.busy = true ∨ (t.busy = false ∧ ∃ r, t.response = some r) := by
  cases tn with
  | core ct =>
    obtain ⟨p, rfl⟩ | ⟨-, r, d, rfl⟩ := coreTurn_cases h
    · exact .inl hb
    · exact .inr ⟨rfl, r, rfl⟩
  | host a =>
    cases a with
    | present form input place =>
      obtain ⟨hidle, -⟩ := present_cases h
      cases hidle.symm.trans hb
    | read what =>
      simp only [takeTurn, hostTurn] at h
      split at h <;> cases h
      exact .inl hb
    | changeInput i b => exact .inl (changeInput_eq h ▸ hb)
    | reset => exact absurd rfl htn

/-- Settles O51, by induction on the turns to come: each turn answers or leaves one turn less, and where none is left
CORE answers. -/
theorem acceptedCommandIsAnswered : Obligations.AcceptedCommandIsAnswered := by
  intro s hs hb hduty hreset
  induction hts : s.turns generalizing s with
  | nil =>
    obtain ⟨r, d, hrun⟩ := runCommand_total hs hb
    exact ⟨1, _, r, Nat.le_refl 1, run_succ ((step_unlisted hts hb).trans hrun), rfl, rfl⟩
  | cons tn rest ih =>
    obtain ⟨t, hstep, hinv, hturns, hrest⟩ := dutifulHostNeverStops s hs hduty
    rw [hts, List.tail_cons] at hturns
    rw [hts, List.mem_cons, not_or] at hreset
    have htake : takeTurn tn (s.dropTurn rest) = .next t := (step_cons hts).symm.trans hstep
    obtain hbusy | ⟨hidle, r, hr⟩ := takeTurn_of_busy (s := s.dropTurn rest) hb (Ne.symm hreset.1) htake
    · obtain ⟨k, t', r, hk, hrun, hanswer⟩ := ih t hinv hbusy hrest (hturns ▸ hreset.2) hturns
      exact ⟨k + 1, t', r, Nat.succ_le_succ hk, (run_succ hstep).trans hrun, hanswer⟩
    · exact ⟨1, t, r, Nat.le_add_left 1 _, run_succ hstep, hidle, hr⟩

end Sys2Proof.Machine
end

section
/-! SUPPORT. The packed byte of each width written out (41_pack.md R121, R127 to R129), and its bits (20_memory.md
R55). -/

namespace Sys2Proof.Machine

/-- Only MASK changes a sample (R123). -/
theorem condition_eq (n : Width) (pol : Policy) (x : Nat) :
    condition n pol x = if pol = .mask then x &&& fmask n else x := by cases pol <;> rfl

/-- The byte of a group: a free byte where the group draws, otherwise its samples conditioned and assembled (R124). -/
theorem packByte_group (cfg : Config) (n : Width) (pol : Policy) (d : Nat) (c : Command) (g : Nat) :
    packByte cfg n pol d (groupSamples n c g) =
      if pol = .trust ∧ cfg.oorTrust = .any ∧
          ∃ j, j < samplesPerByte n ∧ fmask n < c.byteAt (samplesPerByte n * g + j) then
        Config.freeByte d
      else trunc8 (orFields n
        ((List.range (samplesPerByte n)).map fun j => condition n pol (c.byteAt (samplesPerByte n * g + j)))) := by
  have hdraw : (drawsFree cfg pol && outOfRange n (groupSamples n c g)) = true ↔ pol = .trust ∧ cfg.oorTrust = .any ∧
      ∃ j, j < samplesPerByte n ∧ fmask n < c.byteAt (samplesPerByte n * g + j) := by
    rw [Bool.and_eq_true, drawsFree_iff, outOfRange_iff, and_assoc, Nat.mul_comm g]
  have hsamples : (groupSamples n c g).map (condition n pol) =
      (List.range (samplesPerByte n)).map fun j => condition n pol (c.byteAt (samplesPerByte n * g + j)) := by
    simp only [groupSamples, List.map_map, Function.comp_def, Nat.mul_comm g]
  rw [packByte, hsamples]
  exact if_congr hdraw rfl rfl

/-! ### The assembled byte of each width -/

theorem orFields_one (x : Nat → Nat) :
    orFields .one ((List.range (samplesPerByte .one)).map x) =
      (x 0 <<< 7 ||| x 1 <<< 6 ||| x 2 <<< 5 ||| x 3 <<< 4 ||| x 4 <<< 3 ||| x 5 <<< 2 ||| x 6 <<< 1 ||| x 7) := by
  show (0 ||| x 0 <<< 7 ||| x 1 <<< 6 ||| x 2 <<< 5 ||| x 3 <<< 4 ||| x 4 <<< 3 ||| x 5 <<< 2 ||| x 6 <<< 1
    ||| x 7 <<< 0) = _
  rw [Nat.zero_or, Nat.shiftLeft_zero]

theorem orFields_two (x : Nat → Nat) :
    orFields .two ((List.range (samplesPerByte .two)).map x) = (x 0 <<< 6 ||| x 1 <<< 4 ||| x 2 <<< 2 ||| x 3) := by
  show (0 ||| x 0 <<< 6 ||| x 1 <<< 4 ||| x 2 <<< 2 ||| x 3 <<< 0) = _
  rw [Nat.zero_or, Nat.shiftLeft_zero]

theorem orFields_four (x : Nat → Nat) :
    orFields .four ((List.range (samplesPerByte .four)).map x) = (x 0 <<< 4 ||| x 1) := by
  show (0 ||| x 0 <<< 4 ||| x 1 <<< 0) = _
  rw [Nat.zero_or, Nat.shiftLeft_zero]

/-- Settles O23: the group's byte, with the eight fields of width 1 written out. -/
theorem pack1PacksEightSamples : Obligations.Pack1PacksEightSamples := by
  intro s c pol h hn hr
  obtain ⟨m, he, hholds⟩ := pack_done h hn hr
  simp only [packByte_group, orFields_one, condition_eq] at hholds
  exact ⟨m, he, hholds⟩

/-- Settles O24: the group's byte, with the four fields of width 2 written out. -/
theorem pack2PacksFourSamples : Obligations.Pack2PacksFourSamples := by
  intro s c pol h hn hr
  obtain ⟨m, he, hholds⟩ := pack_done h hn hr
  simp only [packByte_group, orFields_two, condition_eq] at hholds
  exact ⟨m, he, hholds⟩

/-- Settles O25: the group's byte, with the two fields of width 4 written out. -/
theorem pack4PacksTwoSamples : Obligations.Pack4PacksTwoSamples := by
  intro s c pol h hn hr
  obtain ⟨m, he, hholds⟩ := pack_done h hn hr
  simp only [packByte_group, orFields_four, condition_eq] at hholds
  exact ⟨m, he, hholds⟩

/-- Settles O26: a bit of a field is a bit of its sample, since in-range samples do not reach into other fields. -/
theorem packedBitsAreTheSamplesBits : Obligations.PackedBitsAreTheSamplesBits := by
  intro s t c n pol r h hn hx he hr g j b hg hj hb
  rw [← samplesPerByte_eq] at hn hj ⊢
  obtain ⟨-, hlen, -, hbyte⟩ := pack_response_inRange h hn hx he hr
  rw [hlen] at hg
  refine ⟨trunc8 (orFields n (groupSamples n c g)), hbyte g hg, ?_⟩
  rw [trunc8, BitVec.getLsbD_ofNat, decide_eq_true (fieldPlace_add_lt hb), Bool.true_and, groupSamples]
  exact testBit_orFields_place (fun i hi => hx _ (groupIndex_lt hg hi)) hj hb

end Sys2Proof.Machine
end

section
/-! SUPPORT. The work units (20_memory.md R58 to R60): the lanes take each one once, and together they write each OBUF
index once. -/

namespace Sys2Proof.Machine

/-! ### The order of the lanes -/

/-- No unit stands twice in the lanes' order: its round and its lane are the remainder and the quotient by the length
of a chunk. -/
theorem nodup_workOrder (lanes units : Nat) : (workOrder lanes units).Nodup := by
  refine List.nodup_flatMap.2 ⟨fun r hr => ?_, List.nodup_range.pairwise_of_forall_ne fun r hr r' hr' hne => ?_⟩
  · have hchunk : 0 < chunkOf lanes units := Nat.zero_lt_of_lt (List.mem_range.1 hr)
    refine (List.nodup_range.map fun l l' hl => ?_).filter _
    exact Nat.eq_of_mul_eq_mul_right hchunk (Nat.add_right_cancel hl)
  · rintro u hu hu'
    obtain ⟨l, -, rfl⟩ := List.mem_map.1 (List.mem_filter.1 hu).1
    obtain ⟨l', -, heq⟩ := List.mem_map.1 (List.mem_filter.1 hu').1
    have hmod := congrArg (· % chunkOf lanes units) heq
    simp only [Nat.mul_add_mod', Nat.mod_eq_of_lt (List.mem_range.1 hr),
      Nat.mod_eq_of_lt (List.mem_range.1 hr')] at hmod
    exact hne hmod.symm

/-- Settles O43: the same units stand in both lists, and none twice. -/
theorem lanesTakeEveryUnitOnce : Obligations.LanesTakeEveryUnitOnce := fun lanes units =>
  (List.perm_ext_iff_of_nodup (nodup_workOrder lanes units) List.nodup_range).2 fun u => by
    rw [mem_workOrder, List.mem_range]

/-! ### The indices the units write -/

/-- Blocks of `k` indices, one after the other. -/
theorem flatMap_range_blocks (len k : Nat) :
    ((List.range len).flatMap fun u => (List.range k).map fun j => u * k + j) = List.range (len * k) := by
  induction len with
  | zero => rw [Nat.zero_mul]; rfl
  | succ len ih => rw [List.range_succ, List.flatMap_append, ih, List.flatMap_singleton, Nat.succ_mul, List.range_add]

/-- The units of every instruction, taken in rising order, write the OBUF indices in rising order. -/
theorem units_in_order {c : Command} (h : c.wf = true) (i : Instr) (cfg : Config) (draws : Nat) :
    ∃ idx f, UnitSpec (operationOf i) cfg draws c idx f ∧
      (List.range ((operationOf i).units c.n)).flatMap idx = List.range ((operationOf i).length c.n) := by
  obtain ⟨p, n, rfl⟩ | ⟨n, pol, rfl⟩ | ⟨n, p, rfl⟩ := instr_cases i
  · exact ⟨_, _, bitrev_units h cfg draws, List.flatMap_singleton' _⟩
  · rw [operationOf_packInstr]
    exact ⟨_, _, pack_units h n pol cfg draws, List.flatMap_singleton' _⟩
  · rw [operationOf_unpackInstr]
    exact ⟨_, _, unpack_units h n cfg draws, flatMap_range_blocks _ _⟩

/-- Settles O41: the lanes' order is a rearrangement of the rising one, in which the indices are written in order; an
error's response is empty. -/
theorem eachOutputByteIsWrittenOnce : Obligations.EachOutputByteIsWrittenOnce := by
  refine ⟨fun c i cfg draws lanes hw => ?_, fun s t i r he hr hstatus => ?_⟩
  · obtain ⟨idx, f, hu, horder⟩ := units_in_order hw i cfg draws
    refine ⟨fun u => (idx u).map fun a => (a, f a), hu.cells, ?_⟩
    have hfst : ∀ us : List Nat, (us.flatMap fun u => (idx u).map fun a => (a, f a)).map Prod.fst = us.flatMap idx :=
      fun us => by simp [List.map_flatMap, Function.comp_def]
    rw [hfst, ← horder]
    exact (lanesTakeEveryUnitOnce lanes _).flatMap_right idx
  · obtain ⟨e, rfl⟩ | ⟨r', hr', h0⟩ := exec_error_or_ok he
    · cases hr
      rfl
    · cases hr.symm.trans hr'
      exact absurd h0 hstatus

end Sys2Proof.Machine
end

section
/-! SUPPORT. What an answer depends on (20_memory.md R59; 10_state.md R25; 60_exceptions.md R181): an output byte on its
slice of the input, the response on the command, and neither on anything else but the numbering of a draw (log 7). -/

namespace Sys2Proof.Machine

/-! ### One output byte -/

/-- Reading past the end of a whole buffer gives nothing. -/
theorem Holds.read_eq {m : Memory} {len : Nat} {f : Nat → Byte} (h : Holds m len f) (j : Nat) :
    Memory.read m j = if j < len then some (f j) else none := by
  split
  · exact h.2 j ‹_›
  · exact Memory.read_none_of_full (Memory.full_iff.2 h.1) (Nat.le_of_not_lt ‹_›)

/-- Two buffers of one length whose contents agree at an index read alike there. -/
theorem Holds.read_congr {m m' : Memory} {len : Nat} {f g : Nat → Byte} {j : Nat} (h : Holds m len f)
    (h' : Holds m' len g) (hj : j < len → f j = g j) : Memory.read m j = Memory.read m' j := by
  rw [h.read_eq, h'.read_eq]
  split
  · rw [hj ‹_›]
  · rfl

/-- The byte of a group depends on its samples, and on the number of its free byte only where it draws (R124). -/
theorem packByte_congr {cfg cfg' : Config} {n : Width} {pol : Policy} {d d' : Nat} {xs : List Nat}
    (hcfg : cfg.oorTrust = cfg'.oorTrust) (hd : drawsFree cfg pol = true → outOfRange n xs = true → d = d') :
    packByte cfg n pol d xs = packByte cfg' n pol d' xs := by
  have hdraws : drawsFree cfg pol = drawsFree cfg' pol := by rw [drawsFree, drawsFree, hcfg]
  unfold packByte
  rw [← hdraws]
  split
  · rename_i hboth
    obtain ⟨hfree, hout⟩ := Bool.and_eq_true_iff.1 hboth
    rw [hd hfree hout]
  · rfl

/-- A group of in-range samples does not draw. -/
theorem outOfRange_of_inRange {n : Width} {c : Command} {g : Nat} (h : c.inRange n)
    (hg : g < c.n / samplesPerByte n) : outOfRange n (groupSamples n c g) = false := by
  rw [← Bool.not_eq_true, outOfRange_iff]
  rintro ⟨j, hj, hbad⟩
  exact absurd (le_fmask_iff.2 (h _ (groupIndex_lt hg hj))) (Nat.not_le.2 hbad)

/-- Settles O42: on success the byte is the one its unit writes, which reads the input at its slice alone. -/
theorem outputBytesDependOnTheirSlice : Obligations.OutputBytesDependOnTheirSlice := by
  intro s s' t t' c c' i r r' j h h' hlen hcfg hdraw he he' hr hr' h0 h0' hslice
  have ⟨_, hw, _⟩ := h
  have ⟨_, hw', _⟩ := h'
  obtain ⟨p, n, rfl, hx⟩ | ⟨n, pol, rfl, hx⟩ | ⟨n, p, rfl, hx⟩ := hslice
  · have hbytes := exec_holds h (bitrev_units hw _ _) he hr h0
    have hbytes' := exec_holds h' (bitrev_units hw' _ _) he' hr' h0'
    rw [hlen] at hbytes'
    exact hbytes.read_congr hbytes' fun _ => by rw [hx]
  · have hbytes := exec_holds h ((operationOf_packInstr n pol).symm ▸ pack_units hw n pol _ _) he hr h0
    have hbytes' := exec_holds h' ((operationOf_packInstr n pol).symm ▸ pack_units hw' n pol _ _) he' hr' h0'
    rw [operationOf_packInstr] at hbytes hbytes'
    rw [hlen] at hbytes'
    rw [← samplesPerByte_eq] at hx
    have hsamples : groupSamples n c' j = groupSamples n c j :=
      List.map_congr_left fun k hk => (hx k (List.mem_range.1 hk)).symm
    refine hbytes.read_congr hbytes' fun hj => ?_
    rw [hsamples]
    refine packByte_congr hcfg fun hfree hout => ?_
    obtain ⟨rfl, hany⟩ := drawsFree_iff.1 hfree
    obtain hf | hd | hrange := hdraw
    · cases hany.symm.trans hf
    · rw [hd]
    · cases (outOfRange_of_inRange (hrange n rfl) hj).symm.trans hout
  · have hbytes := exec_holds h ((operationOf_unpackInstr n p).symm ▸ unpack_units hw n _ _) he hr h0
    have hbytes' := exec_holds h' ((operationOf_unpackInstr n p).symm ▸ unpack_units hw' n _ _) he' hr' h0'
    rw [operationOf_unpackInstr] at hbytes hbytes'
    rw [hlen] at hbytes'
    rw [← samplesPerByte_eq] at hx
    exact hbytes.read_congr hbytes' fun _ => by rw [hx]

/-! ### The whole answer -/

/-- Two whole buffers of one length that read alike are the same data. -/
theorem Holds.ext {m m' : Memory} {len : Nat} {f g : Nat → Byte} (h : Holds m len f) (h' : Holds m' len g)
    (hread : ∀ j, Memory.read m j = Memory.read m' j) : m = m' :=
  Memory.ext_of_wf (Memory.wf_of_full (Memory.full_iff.2 h.1)) (Memory.wf_of_full (Memory.full_iff.2 h'.1)) hread

/-- Which operations draw is settled by OOR_TRUST_RESULT alone of the parameters (R124). -/
theorem drawn_congr (i : Instr) {cfg cfg' : Config} (h : cfg.oorTrust = cfg'.oorTrust) (len : Nat) :
    (operationOf i).drawn cfg len = (operationOf i).drawn cfg' len := by
  have hdraws : (operationOf i).draws cfg = (operationOf i).draws cfg' := by
    obtain ⟨p, n, rfl⟩ | ⟨n, pol, rfl⟩ | ⟨n, p, rfl⟩ := instr_cases i
    · rfl
    · simp only [operationOf_packInstr, packOp, drawsFree, h]
    · rw [operationOf_unpackInstr]
      rfl
  rw [Operation.drawn, Operation.drawn, hdraws]

/-- The same instruction on the same command gets the same response and draws as many bytes, wherever CORE is in its
work and whatever else the state holds. -/
theorem exec_agree {s s' : State} {c : Command} {i : Instr} (h : s.Performing i c) (h' : s'.Performing i c)
    (hcfg : s.config.oorTrust = s'.config.oorTrust)
    (hdraw : s.config.oorTrust = .formula8 ∨ s.draws = s'.draws ∨ ∀ n, i = packInstr n .trust → c.inRange n) :
    ∃ r d, exec i s = .next (s.answered r d) ∧ exec i s' = .next (s'.answered r d) := by
  have ⟨_, hw, _⟩ := h
  obtain ⟨idx, f, hu⟩ := units_of hw i s.config s.draws
  obtain ⟨idx', f', hu'⟩ := units_of hw i s'.config s'.draws
  obtain ⟨e, hcheck, he⟩ | ⟨hcheck, m, he, hm⟩ := exec_outcome h hu <;>
    obtain ⟨e', hcheck', he'⟩ | ⟨hcheck', m', he', hm'⟩ := exec_outcome h' hu' <;> cases hcheck.symm.trans hcheck'
  · exact ⟨_, _, he, he'⟩
  · have hread : ∀ j, Memory.read m j = Memory.read m' j := fun j => by
      refine outputBytesDependOnTheirSlice s s' _ _ c c i _ _ j h h' rfl hcfg hdraw he he' rfl rfl rfl rfl ?_
      obtain ⟨p, n, rfl⟩ | ⟨n, pol, rfl⟩ | ⟨n, p, rfl⟩ := instr_cases i
      · exact .inl ⟨p, n, rfl, rfl⟩
      · exact .inr (.inl ⟨n, pol, rfl, fun _ _ => rfl⟩)
      · exact .inr (.inr ⟨n, p, rfl, rfl⟩)
    rw [← hm.ext hm' hread, ← drawn_congr i hcfg] at he'
    exact ⟨_, _, he, he'⟩

/-- So does the command in flight, whatever its word. -/
theorem runCommand_agree {s s' : State} {c : Command} (hc : s.command = some c) (hc' : s'.command = some c)
    (h : ∀ i, decode c.cmd = .instr i → s.Performing i c ∧ s'.Performing i c)
    (hcfg : s.config.oorTrust = s'.config.oorTrust)
    (hdraw : s.config.oorTrust = .formula8 ∨ s.draws = s'.draws ∨
      ∀ n, decode c.cmd = .instr (packInstr n .trust) → c.inRange n) :
    ∃ r d, runCommand s = .next (s.answered r d) ∧ runCommand s' = .next (s'.answered r d) := by
  simp only [runCommand, hc, hc']
  cases hd : decode c.cmd with
  | instr i =>
    obtain ⟨hperf, hperf'⟩ := h i hd
    exact exec_agree hperf hperf' hcfg (hdraw.imp_right (.imp_right fun hx n hi => hx n (hd.trans (congrArg _ hi))))
  | invalidCommand w => exact ⟨_, 0, rfl, rfl⟩
  | invalidBitWidth nb => exact ⟨_, 0, rfl, rfl⟩

/-- Settles O39: both states answer the command with the same response. -/
theorem responseIsAFunctionOfTheCommand : Obligations.ResponseIsAFunctionOfTheCommand := by
  intro s s' c hc hc' h hcfg hdraw
  obtain ⟨r, d, hrun, hrun'⟩ := runCommand_agree hc hc' h hcfg hdraw
  exact ⟨_, _, hrun, hrun', rfl⟩

theorem run_one (s : State) : Sys2Proof.core.run 1 s = step s := by
  have hcore : Sys2Proof.core.step s = step s := rfl
  simp only [Host.Core.run, hcore]
  cases step s <;> rfl

/-- Two steps in which an idle block accepts a command and answers it. -/
theorem run_present_respond {s : State} {form : CommandForm} {input : Input} {place : Placement} {rest : List Turn}
    {c : Command} (ht : s.turns = .host (.present form input place) :: .core .respond :: rest)
    (h : present form input place (s.dropTurn (.core .respond :: rest)) =
      .next ((s.dropTurn (.core .respond :: rest)).accept c)) :
    Sys2Proof.core.run 2 s = runCommand ((s.accept c).dropTurn rest) := by
  rw [run_succ ((step_present ht).trans h), run_one, step_respond rfl rfl]
  rfl

/-- Settles O38: acceptance depends on the parameters alone, and both blocks then hold the same command with no work
done. -/
theorem nothingCarriesOver : Obligations.NothingCarriesOver := by
  intro s s' t form bytes place rest rest' hb hb' hcfg hdraw ht ht' hrun
  obtain ⟨a, hstep, -⟩ := run_succ_cases hrun
  obtain ⟨-, w, _, hw, hi, hin, hout, hover, -⟩ := present_cases ((step_present ht).symm.trans hstep)
  cases hi
  rw [run_present_respond ht (present_accept (input := .buffer bytes) hb hw rfl hin hout hover)] at hrun
  rw [dropTurn_config, hcfg] at hin hout
  rw [run_present_respond ht' (present_accept (input := .buffer bytes) hb' hw rfl hin hout hover)]
  have hwhole : (⟨w, bytes.length, Memory.ofBytes bytes⟩ : Command).wf = true := Memory.full_ofBytes bytes
  obtain ⟨r, d, hans, hans'⟩ := runCommand_agree
    (s := (s.accept ⟨w, bytes.length, Memory.ofBytes bytes⟩).dropTurn rest)
    (s' := (s'.accept ⟨w, bytes.length, Memory.ofBytes bytes⟩).dropTurn rest') rfl rfl
    (fun i _ => ⟨performing_fresh rfl hwhole rfl, performing_fresh rfl hwhole rfl⟩) (congrArg Config.oorTrust hcfg)
    (hdraw.imp_right (.imp_right fun hx n hd => hx w n hw hd))
  cases hans.symm.trans hrun
  exact ⟨_, hans', rfl, rfl, by simp only [State.answered, dropTurn_draws, accept_draws]; omega⟩

end Sys2Proof.Machine
end
